-- ==== Sys2Proof/Word.lean ====
section
/-!
DEFINITION. The word types of B64CORE, each of the width 00_scope.md rule R6 gives it.
-/

namespace Sys2Proof

/-- One element of the source or of the destination, and one symbol code: `ELEMW` = 8 bits (R6). -/
abbrev Byte := BitVec 8

/-- A 6-bit value, an index of the alphabet: `SYMW` = 6 bits (R6). -/
abbrev Value6 := BitVec 6

/-- The 24-bit packed group: `ACCW` = 24 bits (R6). -/
abbrev Acc := BitVec 24

/-- A command word: 16 bits (R6, R60). -/
abbrev Word := BitVec 16

/-- The field width that XBIT selects: bit `w` of the word, 0 for 6 and 1 for 8 (R62). -/
inductive FieldWidth where
  | six
  | eight
  deriving DecidableEq, Repr

end Sys2Proof
end

