-- ==== Sys2Proof/Config.lean ====
section
/-!
DEFINITION. The implementation parameters of 00_scope.md rule R6 that are not widths of a type in Word.lean, and the one value
the spec leaves free (70_reset_and_hazards.md rule R180).
-/

namespace Sys2Proof.Config

/-- What the OPEN parameter `CW` has above its least value 3.
No body: nothing can be proved of it, so every claim holds for every cursor width R6 allows (log 1). -/
opaque cwAboveThree : Nat

/-- `CW`, the width in bits of SRCPOS, DSTPOS, DSTCAP and INVPOS: any `CW >= 3` (R6, D4; log 1). -/
def CW : Nat := 3 + cwAboveThree

/-- R6: `CW >= 3`. -/
theorem three_le_CW : 3 ≤ CW := Nat.le_add_right 3 _

/-- The least number that no CW-bit register holds. -/
abbrev cursorLimit : Nat := 2 ^ CW

/-- FREE VALUE: how many elements the `k`-th command that a reset abandoned had written by then.
R180 says that nothing is known about how far such a command got. No body: nothing can be proved of it (log 19). -/
opaque writesBeforeReset (k : Nat) : Nat

/-- The data width of the register port: the larger of 24 and CW (R24). -/
def portWidth : Nat := max 24 CW

/-- `SENTINEL`, the invalid-symbol marker (R6). -/
abbrev sentinel : Nat := 64

/-- The pad-count ceiling (R6, D12). -/
abbrev padCeiling : Nat := 2

end Sys2Proof.Config

/-- The contents of SRCPOS, DSTPOS, DSTCAP and INVPOS: `CW` bits (R6). -/
abbrev Sys2Proof.Cursor := BitVec Sys2Proof.Config.CW
end

