-- ==== Sys2Proof/Syntax.lean ====
section
/-!
DEFINITION. The commands of B64CORE: one constructor for each row of spec/opcode_table.json, that is of 30_encoding.md rule R63.
Each operand has exactly the width of its field (R61, R62), so a term that no word encodes cannot be written.
-/

namespace Sys2Proof

/-- A command. -/
inductive Instr where
  /-- ENC: encode the bound source (R83). -/
  | enc
  /-- DEC: decode the bound source (R102). -/
  | dec
  /-- S2V: the value of a symbol (R123). -/
  | s2v (sym : Byte)
  /-- V2S: the symbol of a value (R124). -/
  | v2s (val : Byte)
  /-- XBIT: a field of the accumulator (R125). -/
  | xbit (width : FieldWidth) (idx : BitVec 2)
  /-- CLRA: clear the group (R80). -/
  | clra
  /-- PK8: pack one byte (R81). -/
  | pk8 (byte : Byte)
  /-- PK6: pack one symbol (R100). -/
  | pk6 (sym : Byte)
  /-- EMS: emit the four symbols of the group (R82). -/
  | ems
  /-- EMB: emit the bytes of the group (R101). -/
  | emb (fin : Bool)
  /-- CLRF: clear fault and flags (R140). -/
  | clrf
  deriving DecidableEq, Repr

end Sys2Proof
end

