-- ==== Sys2Proof/WellFormed.lean ====
section
/-!
DEFINITION. The well-formedness checks.
A command and an action of the host have no ill-formed term, since the operand types are the fields of R62 and the port widths of
R142 and R143; what can be ill-formed is a number in an assembler line (R67, R68).
-/

namespace Sys2Proof

/-- Every operand lies in the range R62 gives its field. The types hold it, so the check refuses no term. -/
abbrev Instr.WellFormed : Instr → Prop
  | .s2v sym => sym.toNat < 256
  | .v2s val => val.toNat < 256
  | .xbit _ idx => idx.toNat < 4
  | .pk8 byte => byte.toNat < 256
  | .pk6 sym => sym.toNat < 256
  | .enc | .dec | .clra | .ems | .emb _ | .clrf => True

/-- An operand of one byte in an assembler line: a number 0..255 (R67). -/
abbrev Asm.byteInRange (n : Nat) : Prop := n < 256

/-- The width operand of `XBIT`: 6 or 8 (R67). -/
abbrev Asm.widthInRange (n : Nat) : Prop := n = 6 ∨ n = 8

/-- The index operand of `XBIT`, `UP6` and `UP8`: 0..3 (R67, R68). -/
abbrev Asm.idxInRange (n : Nat) : Prop := n < 4

/-- The operand of `EMB`: 0 or 1 (R67). -/
abbrev Asm.finInRange (n : Nat) : Prop := n < 2

/-- The operand of `.dstpos` and `.dstcap`, which is a CW-bit value, and the length of the list of `.src` (R68, R142, R143). -/
abbrev Asm.cursorInRange (n : Nat) : Prop := n < Config.cursorLimit

end Sys2Proof
end

