-- ==== Sys2Proof/Decode.lean ====
section
/-!
DEFINITION. The decoder and the encoder: 30_encoding.md rules R60 to R66.
A command word is a whole 16-bit number on the command port, so no byte order enters (20_memory.md R44, R54).
-/

namespace Sys2Proof

/-- Why a word is no command (R65). All illegal words behave alike; the reason is for the reader. -/
inductive IllegalWord where
  /-- The opcode is one of 0x0, 0xC, 0xD, 0xE, 0xF. -/
  | unassignedOpcode (op : BitVec 4)
  /-- A must-be-zero bit of the opcode's format is set. -/
  | mustBeZero (op : BitVec 4)
  deriving DecidableEq, Repr

/-- One row of the opcode map: a word `c` is the command exactly when `c & mask = pattern` (R63). -/
structure OpcodeRow where
  mnemonic : String
  pattern  : Word
  mask     : Word
  operands : Word → Instr

/-- `op` = word[15:12] (R60). -/
def opField (c : Word) : BitVec 4 := c.extractLsb' 12 4

/-- `imm8` = word[7:0] (R62). -/
def imm8Field (c : Word) : Byte := c.extractLsb' 0 8

/-- `w` = word[2]: 0 selects width 6, 1 selects width 8 (R62). -/
def wField (c : Word) : FieldWidth := if c.getLsbD 2 then .eight else .six

/-- `idx` = word[1:0] (R62). -/
def idxField (c : Word) : BitVec 2 := c.extractLsb' 0 2

/-- `fin` = word[0] (R62). -/
def finField (c : Word) : Bool := c.getLsbD 0

/-- The opcode map (R63). -/
def opcodeRows : List OpcodeRow :=
  [ ⟨"ENC",  0x1000, 0xFFFF, fun _ => .enc⟩,
    ⟨"DEC",  0x2000, 0xFFFF, fun _ => .dec⟩,
    ⟨"S2V",  0x3000, 0xFF00, fun c => .s2v (imm8Field c)⟩,
    ⟨"V2S",  0x4000, 0xFF00, fun c => .v2s (imm8Field c)⟩,
    ⟨"XBIT", 0x5000, 0xFFF8, fun c => .xbit (wField c) (idxField c)⟩,
    ⟨"CLRA", 0x6000, 0xFFFF, fun _ => .clra⟩,
    ⟨"PK8",  0x7000, 0xFF00, fun c => .pk8 (imm8Field c)⟩,
    ⟨"PK6",  0x8000, 0xFF00, fun c => .pk6 (imm8Field c)⟩,
    ⟨"EMS",  0x9000, 0xFFFF, fun _ => .ems⟩,
    ⟨"EMB",  0xA000, 0xFFFE, fun c => .emb (finField c)⟩,
    ⟨"CLRF", 0xB000, 0xFFFF, fun _ => .clrf⟩ ]

/-- `c & mask = pattern` (R63). -/
def rowMatches (c : Word) (r : OpcodeRow) : Bool := c &&& r.mask == r.pattern

/-- Why a word that matches no row is illegal (R65). -/
def illegalReason (c : Word) : IllegalWord :=
  if opField c = 0x0 ∨ 0xC ≤ opField c then .unassignedOpcode (opField c) else .mustBeZero (opField c)

/-- The decoder: total on the 65536 words (R64). -/
def decode (c : Word) : Except IllegalWord Instr :=
  match opcodeRows.find? (rowMatches c) with
  | some r => .ok (r.operands c)
  | none   => .error (illegalReason c)

/-- The decoder as the host asks for it: the low `nbits` bits of `w` as one command word. -/
def decodeTableWord (nbits w : Nat) : Option Instr :=
  match decode (BitVec.ofNat 16 (w % 2 ^ nbits)) with
  | .ok i    => some i
  | .error _ => none

/-- Format N: the opcode and twelve zero bits (R61). -/
def formatN (op : BitVec 4) : Word := op ++ 0#12

/-- Format I: the opcode, four zero bits, imm8 (R61). -/
def formatI (op : BitVec 4) (imm8 : Byte) : Word := op ++ 0#4 ++ imm8

/-- Format X: the opcode, nine zero bits, w, idx (R61). -/
def formatX (op : BitVec 4) (w : FieldWidth) (idx : BitVec 2) : Word :=
  op ++ 0#9 ++ (match w with | .six => 0#1 | .eight => 1#1) ++ idx

/-- Format F: the opcode, eleven zero bits, fin (R61). -/
def formatF (op : BitVec 4) (fin : Bool) : Word := op ++ 0#11 ++ BitVec.ofBool fin

/-- The word of a command (R61, R63). -/
def encode : Instr → Word
  | .enc        => formatN 0x1
  | .dec        => formatN 0x2
  | .s2v sym    => formatI 0x3 sym
  | .v2s val    => formatI 0x4 val
  | .xbit w idx => formatX 0x5 w idx
  | .clra       => formatN 0x6
  | .pk8 byte   => formatI 0x7 byte
  | .pk6 sym    => formatI 0x8 sym
  | .ems        => formatN 0x9
  | .emb fin    => formatF 0xA fin
  | .clrf       => formatN 0xB

end Sys2Proof
end

