-- ==== Sys2Proof/Machine/Symbols.lean ====
section
/-!
DEFINITION. The symbol table (10_state.md rules R25, R26) and its two lookups (42_helpers.md rules R120, R121).
ALPHA and PADSYM are one constant, so that another code can be put in their place (92_eei_decisions.md D3; log 6).
-/

namespace Sys2Proof.Machine

/-- The contents of the symbol ROM and the padding symbol. -/
structure SymbolTable where
  /-- ALPHA (R25). -/
  alpha  : Vector Byte 64
  /-- PADSYM (R26). -/
  padsym : Byte
  deriving DecidableEq, Repr

/-- Entries 0..15 of R25: `A`..`P`. -/
def alphaRow0 : List Byte :=
  [0x41, 0x42, 0x43, 0x44, 0x45, 0x46, 0x47, 0x48, 0x49, 0x4A, 0x4B, 0x4C, 0x4D, 0x4E, 0x4F, 0x50]

/-- Entries 16..31 of R25: `Q`..`Z`, `a`..`f`. -/
def alphaRow1 : List Byte :=
  [0x51, 0x52, 0x53, 0x54, 0x55, 0x56, 0x57, 0x58, 0x59, 0x5A, 0x61, 0x62, 0x63, 0x64, 0x65, 0x66]

/-- Entries 32..47 of R25: `g`..`v`. -/
def alphaRow2 : List Byte :=
  [0x67, 0x68, 0x69, 0x6A, 0x6B, 0x6C, 0x6D, 0x6E, 0x6F, 0x70, 0x71, 0x72, 0x73, 0x74, 0x75, 0x76]

/-- Entries 48..63 of R25: `w`..`z`, `0`..`9`, `+`, `/`. -/
def alphaRow3 : List Byte :=
  [0x77, 0x78, 0x79, 0x7A, 0x30, 0x31, 0x32, 0x33, 0x34, 0x35, 0x36, 0x37, 0x38, 0x39, 0x2B, 0x2F]

/-- The block's table: the standard alphabet in ASCII and `=` (R25, R26). -/
def symbols : SymbolTable where
  alpha  := ⟨(alphaRow0 ++ alphaRow1 ++ alphaRow2 ++ alphaRow3).toArray, rfl⟩
  padsym := 0x3D

/-- `PADSYM` (R26). -/
def padSym : Byte := symbols.padsym

/-- `ValToSym(v)` = `ALPHA[v]`, with the domain 0..63 (R121). -/
def valToSym (v : Value6) : Byte := symbols.alpha[v.toNat]'v.isLt

/-- `SymToVal(s)`: the index of `s` in ALPHA, and 64 where there is none (R120). -/
def symToVal (s : Byte) : Nat := symbols.alpha.toList.idxOf s

end Sys2Proof.Machine
end

