-- ==== Sys2Proof/Machine/Operands.lean ====
section
/-!
DEFINITION. The functions on operands and fields: 40_encoder.md rules R84, R85; 41_decoder.md rules R103 to R105;
42_helpers.md rule R122.
-/

namespace Sys2Proof.Machine

/-- `Extract(a, i, w)` = a[23 - w*i : 24 - w*(i+1)]; field 0 is the most significant (R122). -/
def extract (a : Acc) (i w : Nat) : BitVec w := a.extractLsb' (24 - w * (i + 1)) w

/-- `Insert8(a, i, b)`: bits 23 - 8i down to 16 - 8i become `b` (R84). -/
def insert8 (a : Acc) (i : Nat) (b : Byte) : Acc :=
  (a &&& ~~~ (0xFF#24 <<< (16 - 8 * i))) ||| (b.setWidth 24 <<< (16 - 8 * i))

/-- `Insert6(a, i, v)`: bits 23 - 6i down to 18 - 6i become `v` (R105). -/
def insert6 (a : Acc) (i : Nat) (v : Value6) : Acc :=
  (a &&& ~~~ (0x3F#24 <<< (18 - 6 * i))) ||| (v.setWidth 24 <<< (18 - 6 * i))

/-- `Meaningful(N)` = ceil(N*8/6), with ceil(a/b) = floor((a + b - 1)/b) (R85, R8). -/
def meaningful (n : Nat) : Nat := (n * 8 + 5) / 6

/-- `Normalise(s)`: `'A'` for the padding symbol, `s` otherwise (R103). -/
def normalise (s : Byte) : Byte := if s = padSym then 0x41 else s

/-- `Clamp(v)`: 0 for the sentinel, `v` otherwise, in six bits (R104). -/
def clamp (v : Nat) : Value6 := if v = Config.sentinel then 0 else BitVec.ofNat 6 v

/-- The symbols EMS writes, in the order of emission: a field below `Meaningful(CNT)` by its symbol, a later one by
PADSYM (R82). -/
def groupSymbols (a : Acc) (n : Nat) : List Byte :=
  (List.range 4).map fun k => if k < meaningful n then valToSym (extract a k 6) else padSym

/-- The first `n` bytes of the group, in the order of emission (R101). -/
def groupBytes (a : Acc) (n : Nat) : List Byte :=
  (List.range n).map fun k => extract a k 8

end Sys2Proof.Machine
end

