-- ==== Sys2Proof/Machine/HostAction.lean ====
section
/-!
DEFINITION. What the host can do to the block: between commands by 43_system.md rules R141 to R145, and at any time by the reset
input of 70_reset_and_hazards.md rule R180.
-/

namespace Sys2Proof.Machine

/-- A sequence that can be the source: `SRCLEN` elements, `SRCLEN` in 0 .. `2^CW - 1` (00_scope.md R6, 10_state.md R28). -/
structure Source where
  elements : List Byte
  fits     : elements.length < Config.cursorLimit
  deriving DecidableEq, Repr

/-- SRCLEN (R28). -/
abbrev Source.length (src : Source) : Nat := src.elements.length

/-- The empty sequence, which is bound after reset (10_state.md R32). -/
def Source.empty : Source := ⟨[], Nat.two_pow_pos _⟩

/-- One action of the host. What a CW-bit port cannot carry (R142, R143) cannot be written. -/
inductive HostAction where
  /-- Command issue: one 16-bit word on the command port (R144). -/
  | issue (word : Word)
  /-- Register read by number (R141, R24). -/
  | readRegister (number : Nat)
  /-- Register write by number, with a CW-bit value (R142, R24). -/
  | writeRegister (number : Nat) (value : Cursor)
  /-- Bind a finite sequence of elements as the source (R143). -/
  | bindSource (source : Source)
  /-- Read one position of the destination (R145). -/
  | readDestination (position : Nat)
  /-- The reset input is asserted and released between commands (R180). -/
  | assertReset
  /-- One word on the command port, and the reset input asserted and released during its command (R144, R180). -/
  | resetDuring (word : Word)
  deriving DecidableEq, Repr

end Sys2Proof.Machine
end

