-- ==== Sys2Proof/Machine/State.lean ====
section
/-!
DEFINITION. The state of B64CORE (10_state.md rule R10), its reset value (R32), and the reasons a step can stop.
-/

namespace Sys2Proof.Machine

/-- The destination: the positions that have been written, each with its element, positions strictly rising (R29).
A position that is not listed has no value (log 7). -/
abbrev Memory := List Host.Cell

/-- The four faults of the block (60_exceptions.md R150). A fault is taken: it ends in a next state. -/
inductive BlockFault where
  | illegalCommand
  | range
  | groupState
  | capacity
  deriving DecidableEq, Repr

/-- Where the machine stops without a next state. No command stops in a state that a run reaches. -/
inductive Fault where
  /-- Raised by `srcRead` where SRCPOS > SRCLEN: the source has no such element (R42).
  Safe: no run reaches such a state (R31; log 9). -/
  | sourceOverrun
  /-- Raised by the host action `readDestination` at a position no `DstWrite` has written: the spec gives it no value
  (R29, R145). Safe: the model stops where the hardware returns something (log 7). -/
  | unwrittenDestination (position : Nat)
  deriving DecidableEq, Repr

/-- Why a command has no meaning in the model. -/
inductive Refusal where
  /-- Raised by an arm of `exec` for a command that has no meaning yet; no arm is left so. Safe: it stops. -/
  | notModelled (mnemonic : String)
  deriving DecidableEq, Repr

/-- The state: every item of R10, and three fields of the model's own.
ALPHA and PADSYM, which never change, are the constant `symbols` (log 6).
The cursor registers have CW bits; no advance of one of them can wrap (R17, R18; log 2). -/
structure State where
  /-- ACC, the 24-bit accumulator (R11). -/
  acc    : Acc
  /-- CNT, the elements packed into the group (R12). -/
  cnt    : BitVec 3
  /-- PADC, the pad count of the group (R13). -/
  padc   : BitVec 2
  /-- RES, the result of the last helper command (R14). -/
  res    : Byte
  /-- STATUS: ERR in bits 3:0, INV in bit 4 (R20). -/
  status : BitVec 5
  /-- INVPOS, the position of the first invalid symbol (R23). -/
  invpos : Cursor
  /-- SRCPOS, the source cursor (R17). -/
  srcpos : Cursor
  /-- DSTPOS, the destination cursor (R18). -/
  dstpos : Cursor
  /-- DSTCAP, the destination capacity (R19). -/
  dstcap : Cursor
  /-- SRC, the bound source; SRCLEN is its length (R28). -/
  src    : Source
  /-- DST, the destination: what the core has written since the last reset (R29, R32). -/
  dst    : Memory
  /-- DST still: what the core had written before the last reset, which stays written (R180) and counts as unwritten
  (R32). No command and no read of the host gives it (R29; log 8). -/
  leftover : Memory
  /-- The model's own: the host's actions that wait for their step, oldest first (log 3). -/
  inbox  : List HostAction
  /-- The model's own: what the host's last read returned (log 4). -/
  reply  : Option Nat
  /-- The model's own: how many commands a reset has abandoned; it picks the free value of the next one (log 19). -/
  abandoned : Nat
  deriving DecidableEq, Repr

/-- The state after reset (R32). -/
def State.reset : State where
  acc    := 0x000000
  cnt    := 0
  padc   := 0
  res    := 0x00
  status := 0
  invpos := 0
  srcpos := 0
  dstpos := 0
  dstcap := 0
  src    := .empty
  dst    := []
  leftover := []
  inbox  := []
  reply  := none
  abandoned := 0

end Sys2Proof.Machine
end

