-- ==== Sys2Proof/Machine/Flags.lean ====
section
/-!
DEFINITION. The fields of STATUS and every flag computation: 10_state.md rules R13, R20 to R23; 41_decoder.md rule R100.
-/

namespace Sys2Proof.Machine

/-- STATUS.ERR = STATUS[3:0] (R20). -/
def State.err (s : State) : BitVec 4 := s.status.extractLsb' 0 4

/-- STATUS.INV = STATUS[4] (R20). -/
def State.inv (s : State) : Bool := s.status.getLsbD 4

/-- `INV ++ ERR` (R20). -/
def statusWord (inv : Bool) (err : BitVec 4) : BitVec 5 := BitVec.ofBool inv ++ err

/-- A fault is pending: STATUS.ERR is not 0 (R160). -/
def State.faultPending (s : State) : Bool := s.err != 0

/-- The code of a fault in STATUS.ERR (R21, R150). -/
def BlockFault.code : BlockFault → BitVec 4
  | .illegalCommand => 1
  | .range          => 2
  | .groupState     => 3
  | .capacity       => 4

/-- `STATUS.ERR <- e`, INV kept. -/
def State.setErr (s : State) (e : BitVec 4) : State := { s with status := statusWord s.inv e }

/-- The lookup of `sym` gives the sentinel: the symbol is invalid (R100, R104). -/
def lookupFails (sym : Byte) : Bool := symToVal (normalise sym) == Config.sentinel

/-- STATUS after the lookup of `sym`: INV (bit 4) becomes 1 when the symbol is invalid (R22, R100). -/
def statusAfter (sym : Byte) (status : BitVec 5) : BitVec 5 :=
  if lookupFails sym then status ||| 0b10000 else status

/-- INVPOS after the lookup of `sym` at `pos`: written when the symbol is invalid and INV was 0, and at no other time
(R23, R100). -/
def invposAfter (sym : Byte) (pos : Cursor) (inv : Bool) (invpos : Cursor) : Cursor :=
  if lookupFails sym && !inv then pos else invpos

/-- PADC after PK6 of `sym`: `min(PADC + 1, 2)` for the padding symbol, 0 for any other (R13, R100). -/
def padAfter (sym : Byte) (padc : BitVec 2) : BitVec 2 :=
  if sym = padSym then BitVec.ofNat 2 (min (padc.toNat + 1) Config.padCeiling) else 0

end Sys2Proof.Machine
end

