-- ==== Sys2Proof/Machine/Memory.lean ====
section
/-!
DEFINITION. The destination as a partial map from positions to elements (10_state.md rule R29), kept in one canonical form.
-/

namespace Sys2Proof.Machine

/-- The canonical form: positions strictly rising. An unlisted position has no value, so no entry can equal it. -/
abbrev Memory.wf (m : Memory) : Prop := m.Pairwise fun a b => a.1 < b.1

/-- The element at a position, or none where nothing has been written (R29). -/
def Memory.read : Memory → Nat → Option Byte
  | [], _ => none
  | c :: m, p => if c.1 = p then some c.2 else Memory.read m p

/-- `DST[p] <- v` (R43). -/
def Memory.write : Memory → Nat → Byte → Memory
  | [], p, v => [(p, v)]
  | c :: m, p, v =>
    if p < c.1 then (p, v) :: c :: m
    else if p = c.1 then (p, v) :: m
    else c :: Memory.write m p v

/-- Elements written at successive positions from `p` on. -/
def Memory.writeAll : Memory → Nat → List Byte → Memory
  | m, _, [] => m
  | m, p, v :: vs => Memory.writeAll (m.write p v) (p + 1) vs

/-- The entries of `top`, and those of `under` at the positions that `top` does not list. -/
def Memory.overlay (top under : Memory) : Memory := top.foldr (fun c m => m.write c.1 c.2) under

/-- The element that stands at a position of DST, written since the last reset or before it (70_reset_and_hazards.md R180).
What was written before counts as unwritten (R32), so the host's read does not give it. -/
def State.contents (s : State) (p : Nat) : Option Byte := (s.dst.read p).or (s.leftover.read p)

end Sys2Proof.Machine
end

