-- ==== Sys2Proof/Machine/Ops.lean ====
section
/-!
DEFINITION. The operations that commands share: taking a fault and returning from one (60_exceptions.md rules R158, R161),
the three accesses (20_memory.md rules R41 to R43), and the loops of ENC and DEC (40_encoder.md R83, 41_decoder.md R102).
-/

namespace Sys2Proof.Machine

/-- How far a command's pseudocode has come. -/
inductive Flow where
  /-- No fault so far; the next statement runs from this state. -/
  | running (s : State)
  /-- A `raise` has ended the command in this state (R158). -/
  | ended (s : State)
  /-- The pseudocode has no meaning here (a source read past the end). -/
  | stuck (f : Fault)
  deriving DecidableEq, Repr

/-- The statements `k` after what has run: they run only when nothing has ended the command (R9, R159). -/
def Flow.andThen (r : Flow) (k : State → Flow) : Flow :=
  match r with
  | .running s => k s
  | .ended s   => .ended s
  | .stuck f   => .stuck f

/-- The end of a command, normal or by a fault of the block, is a next state (R144, R158). -/
def Flow.outcome (r : Flow) : Host.Outcome State Fault Refusal :=
  match r with
  | .running s => .next s
  | .ended s   => .next s
  | .stuck f   => .fault f

/-- `raise F()`: STATUS.ERR gets the code of F and the command ends there; nothing else changes (R158). -/
def raise (f : BlockFault) (s : State) : Flow := .ended (s.setErr f.code)

/-- The return from a fault: ERR, INV and INVPOS become 0, nothing is restored (R161, R140). -/
def acknowledge (s : State) : State := { s with status := statusWord false 0, invpos := 0 }

/-- `SrcAtEnd()`: SRCPOS = SRCLEN (R41). -/
def srcAtEnd (s : State) : Bool := s.srcpos.toNat == s.src.length

/-- A cursor advanced by one element. It is below a number that a cursor can hold, so it does not wrap (R17, R18). -/
def advance (c : Cursor) {limit : Nat} (below : c.toNat < limit) (fits : limit < Config.cursorLimit) : Cursor :=
  .ofNatLT (c.toNat + 1) (Nat.lt_of_le_of_lt below fits)

/-- `SrcRead()`: the element at SRCPOS and the state with the cursor advanced by one (R42);
none where the source has no such element. -/
def srcRead (s : State) : Option (Byte × State) :=
  if h : s.srcpos.toNat < s.src.length then
    some (s.src.elements[s.srcpos.toNat], { s with srcpos := advance s.srcpos h s.src.fits })
  else none

/-- `DstWrite(v)`: `Capacity` and no change when DSTPOS >= DSTCAP; otherwise the element is written at DSTPOS and the
cursor advances by one (R43). -/
def dstWrite (v : Byte) (s : State) : Flow :=
  if h : s.dstpos.toNat < s.dstcap.toNat then
    .running { s with dst := s.dst.write s.dstpos.toNat v, dstpos := advance s.dstpos h s.dstcap.isLt }
  else raise .capacity s

/-- One `DstWrite` for each element, in order; the first that faults ends it (R50, R159). -/
def dstWriteAll : List Byte → State → Flow
  | [], s => .running s
  | v :: vs, s => (dstWrite v s).andThen (dstWriteAll vs)

/-- `if not SrcAtEnd(): pos <- SRCPOS; x <- SrcRead(); pack x pos` (the inner statement of R83 and R102). -/
def takeElement (pack : Byte → Cursor → State → Flow) (s : State) : Flow :=
  if srcAtEnd s then .running s
  else match srcRead s with
    | some (x, s') => pack x s.srcpos s'
    | none         => .stuck .sourceOverrun

/-- `for j in 0..n-1: body` (R9). -/
def forTimes : Nat → (State → Flow) → State → Flow
  | 0, _, s => .running s
  | n + 1, body, s => (body s).andThen (forTimes n body)

/-- `while not SrcAtEnd(): body` (R9), cut off after `fuel` tests.
A body of ENC or DEC consumes at least one element, so `sourceFuel` is always enough (log 17). -/
def whileSource (body : State → Flow) : Nat → State → Flow
  | 0, s => .running s
  | fuel + 1, s => if srcAtEnd s then .running s else (body s).andThen (whileSource body fuel)

/-- The tests `while not SrcAtEnd()` can need: one for each remaining element and one at the end. -/
def sourceFuel (s : State) : Nat := s.src.length - s.srcpos.toNat + 1

end Sys2Proof.Machine
end

