-- ==== Sys2Proof/Machine/Encoder.lean ====
section
/-!
DEFINITION. The encoder family: CLRA, PK8, EMS, ENC (40_encoder.md).
The group operations are shared with ENC and DEC, which are defined as loops over them (00_scope.md R7).
-/

namespace Sys2Proof.Machine

/-- The pseudocode of CLRA (R80). -/
def clearGroup (s : State) : State := { s with acc := 0x000000, cnt := 0, padc := 0 }

/-- The pseudocode of PK8 (R81). -/
def packByte (b : Byte) (s : State) : Flow :=
  if 3 ≤ s.cnt.toNat then raise .groupState s
  else .running { s with acc := insert8 s.acc s.cnt.toNat b, cnt := s.cnt + 1 }

/-- The pseudocode of EMS (R82). -/
def emitSymbols (s : State) : Flow :=
  if s.cnt = 0 ∨ s.cnt = 4 then raise .groupState s
  else dstWriteAll (groupSymbols s.acc s.cnt.toNat) s

/-- One group of ENC: CLRA, up to three PK8, EMS (R83). -/
def encodeGroup (s : State) : Flow :=
  (forTimes 3 (takeElement fun b _ => packByte b) (clearGroup s)).andThen emitSymbols

/-- CLRA, clear the group (R80). -/
def execClra (s : State) : Host.Outcome State Fault Refusal := .next (clearGroup s)

/-- PK8, pack one byte (R81). -/
def execPk8 (byte : Byte) (s : State) : Host.Outcome State Fault Refusal := (packByte byte s).outcome

/-- EMS, emit the four symbols of the group (R82). -/
def execEms (s : State) : Host.Outcome State Fault Refusal := (emitSymbols s).outcome

/-- ENC, encode the bound source (R83). -/
def execEnc (s : State) : Host.Outcome State Fault Refusal :=
  (whileSource encodeGroup (sourceFuel s) s).outcome

end Sys2Proof.Machine
end

