-- ==== Sys2Proof/Machine/Decoder.lean ====
section
/-!
DEFINITION. The decoder family: PK6, EMB, DEC (41_decoder.md).
-/

namespace Sys2Proof.Machine

/-- The pseudocode of PK6 with `pos` (R100). -/
def packSymbol (sym : Byte) (pos : Cursor) (s : State) : Flow :=
  if 4 ≤ s.cnt.toNat then raise .groupState s
  else .running { s with
    padc   := padAfter sym s.padc
    status := statusAfter sym s.status
    invpos := invposAfter sym pos s.inv s.invpos
    acc    := insert6 s.acc s.cnt.toNat (clamp (symToVal (normalise sym)))
    cnt    := s.cnt + 1 }

/-- The number of bytes EMB writes: `3 - PADC` with `fin` = 1, and 3 with `fin` = 0 (R101). -/
def emitCount (fin : Bool) (padc : BitVec 2) : Nat := if fin then 3 - padc.toNat else 3

/-- The pseudocode of EMB (R101). -/
def emitBytes (fin : Bool) (s : State) : Flow :=
  if s.cnt = 0 then raise .groupState s
  else dstWriteAll (groupBytes s.acc (emitCount fin s.padc)) s

/-- One group of DEC: CLRA, up to four PK6, then EMB with `fin` = 1 when the source is at its end (R102). -/
def decodeGroup (s : State) : Flow :=
  (forTimes 4 (takeElement packSymbol) (clearGroup s)).andThen fun t => emitBytes (srcAtEnd t) t

/-- PK6, pack one symbol; as a command `pos` is `zext_CW(CNT)`, CNT as it was before (R100, R23). -/
def execPk6 (sym : Byte) (s : State) : Host.Outcome State Fault Refusal :=
  (packSymbol sym (s.cnt.setWidth' Config.three_le_CW) s).outcome

/-- EMB, emit the bytes of the group (R101). -/
def execEmb (fin : Bool) (s : State) : Host.Outcome State Fault Refusal := (emitBytes fin s).outcome

/-- DEC, decode the bound source (R102). -/
def execDec (s : State) : Host.Outcome State Fault Refusal :=
  (whileSource decodeGroup (sourceFuel s) s).outcome

end Sys2Proof.Machine
end

