-- ==== Sys2Proof/Machine/Helpers.lean ====
section
/-!
DEFINITION. The helper commands: S2V, V2S, XBIT (42_helpers.md).
-/

namespace Sys2Proof.Machine

/-- S2V, symbol to value: no normalisation, no flag, no fault (R123). -/
def execS2v (sym : Byte) (s : State) : Host.Outcome State Fault Refusal :=
  .next { s with res := BitVec.ofNat 8 (symToVal sym) }

/-- V2S, value to symbol: `Range` for 64 and more (R124). -/
def execV2s (val : Byte) (s : State) : Host.Outcome State Fault Refusal :=
  if 64 ≤ val.toNat then (raise .range s).outcome
  else .next { s with res := valToSym (val.setWidth 6) }

/-- XBIT, extract a field of the accumulator: `Range` for width 8 and index 3 (R125). -/
def execXbit (width : FieldWidth) (idx : BitVec 2) (s : State) : Host.Outcome State Fault Refusal :=
  match width with
  | .six => .next { s with res := (extract s.acc idx.toNat 6).setWidth 8 }
  | .eight =>
    if idx = 3 then (raise .range s).outcome
    else .next { s with res := extract s.acc idx.toNat 8 }

end Sys2Proof.Machine
end

