-- ==== Sys2Proof/Machine/System.lean ====
section
/-!
DEFINITION. The system command: CLRF (43_system.md rule R140).
-/

namespace Sys2Proof.Machine

/-- CLRF, clear fault and flags (R140). -/
def execClrf (s : State) : Host.Outcome State Fault Refusal := .next (acknowledge s)

end Sys2Proof.Machine
end

