-- ==== Sys2Proof/Machine/Dispatch.lean ====
section
/-!
DEFINITION. The meaning of each command, one arm for each row of 30_encoding.md rule R63.
-/

namespace Sys2Proof.Machine

def exec (i : Instr) (s : State) : Host.Outcome State Fault Refusal :=
  match i with
  | .enc => Sys2Proof.Machine.execEnc s
  | .dec => Sys2Proof.Machine.execDec s
  | .s2v sym => Sys2Proof.Machine.execS2v sym s
  | .v2s val => Sys2Proof.Machine.execV2s val s
  | .xbit width idx => Sys2Proof.Machine.execXbit width idx s
  | .clra => Sys2Proof.Machine.execClra s
  | .pk8 byte => Sys2Proof.Machine.execPk8 byte s
  | .pk6 sym => Sys2Proof.Machine.execPk6 sym s
  | .ems => Sys2Proof.Machine.execEms s
  | .emb fin => Sys2Proof.Machine.execEmb fin s
  | .clrf => Sys2Proof.Machine.execClrf s

end Sys2Proof.Machine
end

