-- ==== Sys2Proof/Machine/HostPort.lean ====
section
/-!
DEFINITION. The host's side of the block: command issue, the register port, the source binding, the destination read and
the reset input (43_system.md rules R141 to R145; 10_state.md rule R24; 60_exceptions.md rule R160; 70_reset_and_hazards.md R180).
-/

namespace Sys2Proof.Machine

/-- The word of CLRF, the only one executed while a fault is pending (R160). -/
def clrfWord : Word := 0xB000

/-- A word is dropped: a fault is pending and the word is not 0xB000 (R64, R160). -/
def dropped (w : Word) (s : State) : Bool := s.faultPending && w != clrfWord

/-- Command issue: the word is dropped, or is illegal and raises `IllegalCommand`, or is run (R144, R64, R157). -/
def issueWord (w : Word) (s : State) : Host.Outcome State Fault Refusal :=
  if dropped w s then .next s
  else match decode w with
    | .ok i    => exec i s
    | .error _ => (raise .illegalCommand s).outcome

/-- The value of register `number`; a number above 8 reads 0 (R24). -/
def registerValue (number : Nat) (s : State) : Nat :=
  match number with
  | 0 => s.acc.toNat
  | 1 => s.cnt.toNat
  | 2 => s.padc.toNat
  | 3 => s.res.toNat
  | 4 => s.status.toNat
  | 5 => s.invpos.toNat
  | 6 => s.srcpos.toNat
  | 7 => s.dstpos.toNat
  | 8 => s.dstcap.toNat
  | _ => 0

/-- Register read: the value goes to the port and nothing else changes (R141). -/
def readRegister (number : Nat) (s : State) : State := { s with reply := some (registerValue number s) }

/-- Register write: DSTPOS (7) and DSTCAP (8); a write to any other number is ignored (R142, R24). -/
def writeRegister (number : Nat) (value : Cursor) (s : State) : State :=
  match number with
  | 7 => { s with dstpos := value }
  | 8 => { s with dstcap := value }
  | _ => s

/-- Bind source: SRC becomes the sequence and SRCPOS becomes 0 (R143). -/
def bindSource (source : Source) (s : State) : State := { s with src := source, srcpos := 0 }

/-- Destination read: a position that has been written; any other has no value and stops the model (R145, R29; log 7).
R145 says nothing of a position where the host has put a value since. The model has no such act of the host, so a written position
reads as the core's last element there until the core writes it again or a reset (DESIGN CHOICE, log 18). -/
def readDestination (position : Nat) (s : State) : Host.Outcome State Fault Refusal :=
  match s.dst.read position with
  | some v => .next { s with reply := some v.toNat }
  | none   => .fault (.unwrittenDestination position)

/-- Reset: every register at its reset value and the empty source bound (R180, R32). DST is not touched: what stands there stays
(R180, R181), and every position counts as unwritten (R32; log 8). The host's later actions still wait (log 8). -/
def resetBlock (s : State) : State :=
  { State.reset with leftover := s.dst.overlay s.leftover, inbox := s.inbox, abandoned := s.abandoned }

/-- The state from which a command can write `n` elements at most: DSTCAP lowered where more would fit. -/
def stopWritesAfter (n : Nat) (s : State) : State :=
  { s with dstcap :=
      if h : s.dstpos.toNat + n < s.dstcap.toNat then .ofNatLT (s.dstpos.toNat + n) (Nat.lt_trans h s.dstcap.isLt)
      else s.dstcap }

/-- A reset during a command abandons the command: what it had written stays written, and nothing is known about how far it got
(R180), so the number of its elements that had been written is the free value `writesBeforeReset` (log 19).
Those elements are what the command writes where the destination takes no more (R43, R159). Every register is reset, so nothing
else of the command is left. -/
def resetDuring (w : Word) (s : State) : Host.Outcome State Fault Refusal :=
  match issueWord w (stopWritesAfter (Config.writesBeforeReset s.abandoned) s) with
  | .next t    => .next { resetBlock t with abandoned := s.abandoned + 1 }
  | .fault f   => .fault f
  | .refused r => .refused r

/-- One action of the host. -/
def perform (a : HostAction) (s : State) : Host.Outcome State Fault Refusal :=
  match a with
  | .issue word                 => issueWord word s
  | .readRegister number        => .next (readRegister number s)
  | .writeRegister number value => .next (writeRegister number value s)
  | .bindSource source          => .next (bindSource source s)
  | .readDestination position   => readDestination position s
  | .assertReset                => .next (resetBlock s)
  | .resetDuring word           => resetDuring word s

end Sys2Proof.Machine
end

