-- ==== Sys2Proof/Machine/Step.lean ====
section
/-!
DEFINITION. One step of the block: the first waiting action of the host, or none (43_system.md rule R144; 60_exceptions.md R168).
-/

namespace Sys2Proof.Machine

/-- One step. With no action waiting the block is idle and keeps all its state (R168; log 3, log 16). -/
def step (s : State) : Host.Outcome State Fault Refusal :=
  match s.inbox with
  | []        => .next s
  | a :: rest => perform a { s with inbox := rest }

/-- The state in which the next action is the issue of the low `nbits` bits of `w` as one command word (R144; log 5). -/
def State.withFetchWord (s : State) (nbits w : Nat) : State :=
  { s with inbox := .issue (BitVec.ofNat 16 (w % 2 ^ nbits)) :: s.inbox }

end Sys2Proof.Machine
end

