-- ==== Sys2Proof/Machine/Assembler.lean ====
section
/-!
DEFINITION. The assembler of 30_encoding.md rules R67 and R68: one line of text to the host action it stands for.
It has no effect on the machine (92_eei_decisions.md D25). What R67 and R68 leave open of the text is log 15.
-/

namespace Sys2Proof.Asm

/-- One line: a command (R67), a pseudo-instruction or a directive (R68), with its operands as written. -/
inductive Line where
  | enc
  | dec
  | s2v (sym : Nat)
  | v2s (val : Nat)
  | xbit (width idx : Nat)
  | clra
  | pk8 (byte : Nat)
  | pk6 (sym : Nat)
  | ems
  | emb (fin : Nat)
  | clrf
  | up6 (idx : Nat)
  | up8 (idx : Nat)
  | embf
  | embn
  | pkpad
  | src (elements : List Nat)
  | dstpos (value : Nat)
  | dstcap (value : Nat)
  deriving DecidableEq, Repr

/-- The command with one byte operand; an operand outside 0..255 is refused (R67). -/
def byteCommand (make : Byte → Instr) (n : Nat) : Option Instr :=
  if byteInRange n then some (make (BitVec.ofNat 8 n)) else none

/-- `XBIT width, idx`: a width other than 6 and 8 or an index above 3 is refused, and `XBIT 8, 3` is accepted (R67). -/
def xbitCommand (width idx : Nat) : Option Instr :=
  if widthInRange width ∧ idxInRange idx then
    some (.xbit (if width = 8 then .eight else .six) (BitVec.ofNat 2 idx))
  else none

/-- `EMB fin` (R67). -/
def embCommand (fin : Nat) : Option Instr := if finInRange fin then some (.emb (fin == 1)) else none

/-- The command of a line, a pseudo-instruction by its expansion (R67, R68); none for a directive and for a refused
operand. -/
def command : Line → Option Instr
  | .enc            => some .enc
  | .dec            => some .dec
  | .s2v sym        => byteCommand .s2v sym
  | .v2s val        => byteCommand .v2s val
  | .xbit width idx => xbitCommand width idx
  | .clra           => some .clra
  | .pk8 byte       => byteCommand .pk8 byte
  | .pk6 sym        => byteCommand .pk6 sym
  | .ems            => some .ems
  | .emb fin        => embCommand fin
  | .clrf           => some .clrf
  | .up6 idx        => xbitCommand 6 idx
  | .up8 idx        => xbitCommand 8 idx
  | .embf           => embCommand 1
  | .embn           => embCommand 0
  | .pkpad          => byteCommand .pk6 Machine.padSym.toNat
  | .src _ | .dstpos _ | .dstcap _ => none

/-- The write of a cursor register; a number that is no CW-bit value is refused (R142; log 15). -/
def cursorAction (number value : Nat) : Option Machine.HostAction :=
  if h : cursorInRange value then some (.writeRegister number (.ofNatLT value h)) else none

/-- The bind of a list; one of more than `2^CW - 1` elements is refused (R143; log 15). -/
def sourceAction (elements : List Byte) : Option Machine.HostAction :=
  if h : cursorInRange elements.length then some (.bindSource ⟨elements, h⟩) else none

/-- The host action of a line: the issue of its word, a bind (R143) or a write of register 7 or 8 (R142). -/
def action : Line → Option Machine.HostAction
  | .src elements =>
    if elements.all (fun n => decide (byteInRange n)) then sourceAction (elements.map (BitVec.ofNat 8)) else none
  | .dstpos value => cursorAction 7 value
  | .dstcap value => cursorAction 8 value
  | line          => (command line).map fun i => .issue (encode i)

/-! ### The text of a line -/

/-- A piece of a line's text. -/
inductive Token where
  | name (letters : List Char)
  | number (value : Nat)
  | character (c : Char)
  | text (cs : List Char)
  | comma
  deriving DecidableEq, Repr

/-- A printable ASCII character, the content of a character literal (R67). -/
def printable (c : Char) : Bool := 0x20 ≤ c.toNat && c.toNat ≤ 0x7E

/-- The single quote that encloses a character literal. -/
def singleQuote : Char := Char.ofNat 0x27

/-- The double quote that encloses a string. -/
def doubleQuote : Char := Char.ofNat 0x22

/-- The value of a hexadecimal digit. -/
def hexDigit (c : Char) : Option Nat :=
  if '0' ≤ c ∧ c ≤ '9' then some (c.toNat - 0x30)
  else if 'a' ≤ c ∧ c ≤ 'f' then some (c.toNat - 0x57)
  else if 'A' ≤ c ∧ c ≤ 'F' then some (c.toNat - 0x37)
  else none

/-- The number that digits write in a base, most significant digit first. -/
def digitsValue (base : Nat) : Nat → List Char → Option Nat
  | acc, [] => some acc
  | acc, c :: cs =>
    match hexDigit c with
    | some d => if d < base then digitsValue base (acc * base + d) cs else none
    | none   => none

/-- A number: decimal, or hexadecimal with `0x` (R67). -/
def numberValue : List Char → Option Nat
  | '0' :: 'x' :: d :: ds => digitsValue 16 0 (d :: ds)
  | ds                    => digitsValue 10 0 ds

/-- A character inside a name or a number. -/
def wordChar (c : Char) : Bool := c.isAlphanum || c == '.'

/-- The tokens of a line; `;` starts a comment (R67). `fuel` is the length of the text.
The model's choice, DESIGN CHOICE (log 15), where R67 says nothing of it: a space is needed only between two words, so `S2V'T'`
and `.src"Man"` are read as with a space before the quote, and spaces elsewhere have no meaning outside a literal. -/
def tokens : Nat → List Char → Option (List Token)
  | _, [] => some []
  | 0, _ :: _ => none
  | fuel + 1, c :: cs =>
    if c = ' ' then tokens fuel cs
    else if c = ';' then some []
    else if c = ',' then (tokens fuel cs).map (.comma :: ·)
    else if c = singleQuote then
      match cs with
      | x :: q :: rest =>
        if printable x ∧ q = singleQuote then (tokens fuel rest).map (.character x :: ·) else none
      | _ => none
    else if c = doubleQuote then
      match cs.dropWhile (· != doubleQuote) with
      | _ :: rest =>
        if (cs.takeWhile (· != doubleQuote)).all printable then
          (tokens fuel rest).map (.text (cs.takeWhile (· != doubleQuote)) :: ·)
        else none
      | [] => none
    else if c.isDigit then
      match numberValue (c :: cs.takeWhile wordChar) with
      | some v => (tokens fuel (cs.dropWhile wordChar)).map (.number v :: ·)
      | none   => none
    else if wordChar c then
      (tokens fuel (cs.dropWhile wordChar)).map (.name (c :: cs.takeWhile wordChar) :: ·)
    else none

/-- A number or a character literal, which stands for its ASCII code (R67). -/
def symbolOperand : List Token → Option Nat
  | [.number n]    => some n
  | [.character c] => some c.toNat
  | _              => none

/-- A number (R67). -/
def numberOperand : List Token → Option Nat
  | [.number n] => some n
  | _           => none

/-- The list of bytes of `.src` (R68, which leaves its form open). The model's choice, DESIGN CHOICE (log 15): numbers with one
comma between two of them and none after the last, and no operand at all for the empty list. -/
def byteList : List Token → Option (List Nat)
  | []                                     => some []
  | [.number n]                            => some [n]
  | .number n :: .comma :: .number m :: rest => (byteList (.number m :: rest)).map (n :: ·)
  | _                                      => none

/-- The line that a name and its operands write (R67, R68). -/
def lineOf (name : List Char) (args : List Token) : Option Line :=
  if name = "S2V".toList then (symbolOperand args).map .s2v
  else if name = "V2S".toList then (numberOperand args).map .v2s
  else if name = "PK8".toList then (symbolOperand args).map .pk8
  else if name = "PK6".toList then (symbolOperand args).map .pk6
  else if name = "EMB".toList then (numberOperand args).map .emb
  else if name = "UP6".toList then (numberOperand args).map .up6
  else if name = "UP8".toList then (numberOperand args).map .up8
  else if name = ".dstpos".toList then (numberOperand args).map .dstpos
  else if name = ".dstcap".toList then (numberOperand args).map .dstcap
  else if name = "XBIT".toList then
    match args with
    | [.number width, .comma, .number idx] => some (.xbit width idx)
    | _ => none
  else if name = ".src".toList then
    match args with
    | [.text cs] => some (.src (cs.map Char.toNat))
    | _          => (byteList args).map .src
  else if args ≠ [] then none
  else if name = "ENC".toList then some .enc
  else if name = "DEC".toList then some .dec
  else if name = "CLRA".toList then some .clra
  else if name = "EMS".toList then some .ems
  else if name = "CLRF".toList then some .clrf
  else if name = "EMBF".toList then some .embf
  else if name = "EMBN".toList then some .embn
  else if name = "PKPAD".toList then some .pkpad
  else none

/-- The host actions of one line of text: none of them for an empty line or a comment, one for any other; no answer where
the assembler refuses the line. -/
def assemble (text : List Char) : Option (List Machine.HostAction) :=
  match tokens text.length text with
  | some []                   => some []
  | some (.name name :: args) => ((lineOf name args).bind action).map ([·])
  | _                         => none

end Sys2Proof.Asm
end

