-- ==== Sys2Proof/Safety.lean ====
section
/-!
DEFINITION. What claims are stated in terms of: the invariant of 10_state.md rule R31, the states a run reaches, the mark of a
run gone wrong (60_exceptions.md rule R160), and the Base64 text and bytes of a list, written from the spec's own formulas and
without the machine's accumulator.
-/

namespace Sys2Proof.Machine

/-- What holds in every state a run reaches (R31), with the positions DST can have (R29) and the canonical form of DST.
The width of each register is in its type. -/
structure State.Inv (s : State) : Prop where
  cnt_le         : s.cnt.toNat ≤ 4
  padc_le        : s.padc.toNat ≤ 2
  padc_le_cnt    : s.padc.toNat ≤ s.cnt.toNat
  err_le         : s.err.toNat ≤ 4
  srcpos_le      : s.srcpos.toNat ≤ s.src.length
  /-- The bits of ACC below the fields that CNT packs can have reached are 0 (R31, last sentence; log 12). -/
  unpacked_zero  : s.acc.toNat % 2 ^ (24 - 8 * s.cnt.toNat) = 0
  dst_wf         : s.dst.wf
  dst_lt         : ∀ c ∈ s.dst, c.1 + 1 < Config.cursorLimit
  leftover_wf    : s.leftover.wf
  leftover_lt    : ∀ c ∈ s.leftover, c.1 + 1 < Config.cursorLimit

/-- The elements of the bound source that have not been read (R17, R28). -/
def State.remaining (s : State) : List Byte := s.src.elements.drop s.srcpos.toNat

/-- The elements the destination still takes: DSTCAP - DSTPOS, and 0 when DSTPOS is above DSTCAP (R19, R43, R182). -/
abbrev State.room (s : State) : Nat := s.dstcap.toNat - s.dstpos.toNat

/-- The host puts one more action behind those that wait. -/
def State.post (s : State) (a : HostAction) : State := { s with inbox := s.inbox ++ [a] }

/-- The states a run reaches: from reset, by the host's actions and the block's steps. -/
inductive Reachable : State → Prop where
  | reset : Reachable State.reset
  | post {s : State} (a : HostAction) (h : Reachable s) : Reachable (s.post a)
  | step {s t : State} (h : Reachable s) (next : Machine.step s = .next t) : Reachable t

/-- The next action is a command that will be dropped: a run that does this has gone wrong (R160; log 11). -/
def State.dropsNext (s : State) : Bool :=
  match s.inbox with
  | .issue w :: _ | .resetDuring w :: _ => dropped w s
  | _ => false

/-- `n` steps lead from one state to the other, each to a next state. -/
def stepsTo : Nat → State → State → Prop
  | 0, s, t => s = t
  | n + 1, s, t => ∃ m, step s = .next m ∧ stepsTo n m t

/-- `n` steps from `s`, each to a next state and none of them a dropped command (R160; log 11). -/
def runsClean : Nat → State → Prop
  | 0, _ => True
  | n + 1, s => s.dropsNext = false ∧ ∃ t, step s = .next t ∧ runsClean n t

/-- From `s` to `t` exactly the elements `vs` were written, in order, at the positions from DSTPOS on (R43, R50). -/
def wrote (s t : State) (vs : List Byte) : Prop :=
  t.dstpos.toNat = s.dstpos.toNat + vs.length ∧
  ∀ p, t.dst.read p =
    if s.dstpos.toNat ≤ p ∧ p < s.dstpos.toNat + vs.length then vs[p - s.dstpos.toNat]? else s.dst.read p

/-- The words of a list of commands, waiting for their steps. -/
def issues (cmds : List Instr) : List HostAction := cmds.map fun i => .issue (encode i)

/-- ceil(a/b) = floor((a + b - 1)/b) (R8). -/
def ceilDiv (a b : Nat) : Nat := (a + b - 1) / b

/-! ### The text of a list of bytes (R82, R83) -/

/-- The text of a list of bytes: each group of three by its four 6-bit slices, a last group of one or two with the fields and
the padding of R82's table. -/
def encodedText : List Byte → List Byte
  | [] => []
  | [b0] => [valToSym (b0.extractLsb' 2 6), valToSym (b0.extractLsb' 0 2 ++ 0#4), padSym, padSym]
  | [b0, b1] =>
    [valToSym (b0.extractLsb' 2 6), valToSym (b0.extractLsb' 0 2 ++ b1.extractLsb' 4 4),
     valToSym (b1.extractLsb' 0 4 ++ 0#2), padSym]
  | b0 :: b1 :: b2 :: rest =>
    [valToSym (b0.extractLsb' 2 6), valToSym (b0.extractLsb' 0 2 ++ b1.extractLsb' 4 4),
     valToSym (b1.extractLsb' 0 4 ++ b2.extractLsb' 6 2), valToSym (b2.extractLsb' 0 6)] ++ encodedText rest

/-- The number of `=` that end the text of `n` bytes: 0, 2, 1 for n mod 3 = 0, 1, 2 (95_test_vectors.md W5). -/
def textPadding (n : Nat) : Nat := (3 - n % 3) % 3

/-- The commands of one encoder group (R88). -/
def encodeGroupCommands (bytes : List Byte) : List Instr := .clra :: bytes.map .pk8 ++ [.ems]

/-- The group commands that do the work of ENC (R88). -/
def encodeCommands : List Byte → List Instr
  | [] => []
  | [b0] => encodeGroupCommands [b0]
  | [b0, b1] => encodeGroupCommands [b0, b1]
  | b0 :: b1 :: b2 :: rest => encodeGroupCommands [b0, b1, b2] ++ encodeCommands rest

/-! ### The bytes of a list of symbols (R100 to R106) -/

/-- A symbol that is neither one of the 64 codes of ALPHA nor PADSYM (R100). -/
def invalidSymbol (s : Byte) : Bool := !symbols.alpha.toList.contains s && s != padSym

/-- The value a symbol packs as: its index in ALPHA, and 0 for `=` and for an invalid symbol (R100). -/
def symbolValue (s : Byte) : Value6 :=
  if symbols.alpha.toList.contains s then BitVec.ofNat 6 (symToVal s) else 0

/-- The pad count of a group: the length of its run of `=` that ends at its last symbol, at most 2 (R106). -/
def padCount (group : List Byte) : Nat := min (group.reverse.takeWhile (· == padSym)).length 2

/-- The three bytes of four 6-bit values (R44). -/
def bytesOfValues (v0 v1 v2 v3 : Value6) : List Byte :=
  [v0 ++ v1.extractLsb' 4 2, v1.extractLsb' 0 4 ++ v2.extractLsb' 2 4, v2.extractLsb' 0 2 ++ v3]

/-- The bytes of a final group, cut by its pad count; a missing position has value 0 (R101, R106). -/
def finalBytes (group : List Byte) : List Byte :=
  (bytesOfValues (symbolValue (group.getD 0 0x41)) (symbolValue (group.getD 1 0x41))
    (symbolValue (group.getD 2 0x41)) (symbolValue (group.getD 3 0x41))).take (3 - padCount group)

/-- The bytes of a list of symbols: three for every group that is not the final one, and the final one cut (R102). -/
def decodedBytes : List Byte → List Byte
  | [] => []
  | s0 :: s1 :: s2 :: s3 :: s4 :: rest =>
    bytesOfValues (symbolValue s0) (symbolValue s1) (symbolValue s2) (symbolValue s3) ++ decodedBytes (s4 :: rest)
  | group => finalBytes group

/-- The commands of one decoder group (R109). -/
def decodeGroupCommands (syms : List Byte) (fin : Bool) : List Instr := .clra :: syms.map .pk6 ++ [.emb fin]

/-- The group commands that do the work of DEC (R109). -/
def decodeCommands : List Byte → List Instr
  | [] => []
  | s0 :: s1 :: s2 :: s3 :: s4 :: rest =>
    decodeGroupCommands [s0, s1, s2, s3] false ++ decodeCommands (s4 :: rest)
  | group => decodeGroupCommands group true

/-- INVPOS after the lookups of a list of symbols, the first of them at position `p`: the position of the first invalid one
when INV was 0 and there is one, and what it was otherwise (R23). -/
def invposAfterAll (l : List Byte) (p : Nat) (inv : Bool) (invpos : Nat) : Nat :=
  if inv then invpos
  else match l.findIdx? invalidSymbol with
    | some k => p + k
    | none   => invpos

/-- Group `k` of a list taken `size` at a time, counted from 0. -/
def groupAt (size k : Nat) (l : List Byte) : List Byte := (l.drop (size * k)).take size

/-- The elements of the last group of a list taken `size` at a time. -/
def lastGroup (size : Nat) (l : List Byte) : List Byte := l.drop (size * ((l.length - 1) / size))

end Sys2Proof.Machine
end

