-- ==== Sys2Proof/Certificates/Slice0/Obligations.lean ====
section
/-!
DEFINITION. The statements for the provers. Each docstring names the rules of spec/ that it formalises.
A command is executed when STATUS.ERR = 0 (60_exceptions.md R160), so `s.err = 0` is the premise of a statement about `exec`.
The list of waiting actions (`inbox`) and the reply are the form the model gives the host interface (log 3, log 4).
-/

open Sys2Proof Sys2Proof.Machine

/-! ### Command words (30_encoding.md) -/

/-- R61 to R64: decoding the word of a command gives the command, for every operand value. -/
def Obligations.DecodeOfEncodeIsTheCommand : Prop :=
  ∀ i : Instr, i.WellFormed → decode (encode i) = .ok i

/-- R63, R64: a word that decodes to a command is that command's word, so no two words decode alike. -/
def Obligations.DecodedWordIsItsEncoding : Prop :=
  ∀ (c : Word) (i : Instr), decode c = .ok i → encode i = c

/-- R65: the illegal words, format by format. -/
def Obligations.IllegalWordsAreThoseOfTheFormats : Prop :=
  ∀ c : Word, (∃ e, decode c = .error e) ↔
    (c.extractLsb' 12 4 = 0x0 ∨ 0xC ≤ c.extractLsb' 12 4) ∨
    (c.extractLsb' 12 4 ∈ ([0x1, 0x2, 0x6, 0x9, 0xB] : List (BitVec 4)) ∧ c.extractLsb' 0 12 ≠ 0) ∨
    (c.extractLsb' 12 4 ∈ ([0x3, 0x4, 0x7, 0x8] : List (BitVec 4)) ∧ c.extractLsb' 8 4 ≠ 0) ∨
    (c.extractLsb' 12 4 = 0x5 ∧ c.extractLsb' 3 9 ≠ 0) ∨
    (c.extractLsb' 12 4 = 0xA ∧ c.extractLsb' 1 11 ≠ 0)

/-- R63: the eleven patterns are pairwise disjoint. -/
def Obligations.OpcodePatternsAreDisjoint : Prop :=
  opcodeRows.Pairwise fun r q => ∀ c : Word, ¬ (rowMatches c r = true ∧ rowMatches c q = true)

/-- R67: words written out from the spec's table decode to the commands they stand for. -/
def Obligations.WrittenWordsDecode : Prop :=
  decode 0x1000 = .ok .enc ∧ decode 0x2000 = .ok .dec ∧ decode 0x3054 = .ok (.s2v 0x54) ∧
  decode 0x4013 = .ok (.v2s 19) ∧ decode 0x5006 = .ok (.xbit .eight 2) ∧ decode 0x5003 = .ok (.xbit .six 3) ∧
  decode 0x6000 = .ok .clra ∧ decode 0x704D = .ok (.pk8 0x4D) ∧ decode 0x803D = .ok (.pk6 0x3D) ∧
  decode 0x9000 = .ok .ems ∧ decode 0xA001 = .ok (.emb true) ∧ decode 0xA000 = .ok (.emb false) ∧
  decode 0xB000 = .ok .clrf

/-- R68: the pseudo-instructions are their one-word expansions, and the directives are host actions.
The model's choice in it: a number that is no CW-bit value is refused (log 15). -/
def Obligations.PseudoInstructionsExpand : Prop :=
  (∀ idx < 4, Asm.action (.up6 idx) = Asm.action (.xbit 6 idx) ∧ Asm.action (.up8 idx) = Asm.action (.xbit 8 idx)) ∧
  Asm.action .embf = Asm.action (.emb 1) ∧ Asm.action .embn = Asm.action (.emb 0) ∧
  Asm.action .pkpad = Asm.action (.pk6 0x3D) ∧ Asm.action .pkpad = some (.issue 0x803D) ∧
  (∀ v : Cursor, Asm.action (.dstpos v.toNat) = some (.writeRegister 7 v) ∧
    Asm.action (.dstcap v.toNat) = some (.writeRegister 8 v)) ∧
  (∀ n, 2 ^ Config.CW ≤ n → Asm.action (.dstpos n) = none ∧ Asm.action (.dstcap n) = none) ∧
  (∀ src : Source, Asm.action (.src (src.elements.map BitVec.toNat)) = some (.bindSource src))

/-- R67: each command line gives the word of the table, and an operand outside its range is refused. -/
def Obligations.AssemblerWordsAndRefusals : Prop :=
  (∀ n, Asm.action (.s2v n) = (if n < 256 then some (.issue (0x3000 + BitVec.ofNat 16 n)) else none) ∧
        Asm.action (.v2s n) = (if n < 256 then some (.issue (0x4000 + BitVec.ofNat 16 n)) else none) ∧
        Asm.action (.pk8 n) = (if n < 256 then some (.issue (0x7000 + BitVec.ofNat 16 n)) else none) ∧
        Asm.action (.pk6 n) = (if n < 256 then some (.issue (0x8000 + BitVec.ofNat 16 n)) else none) ∧
        Asm.action (.emb n) = (if n < 2 then some (.issue (0xA000 + BitVec.ofNat 16 n)) else none)) ∧
  (∀ width idx, Asm.action (.xbit width idx) =
    if (width = 6 ∨ width = 8) ∧ idx < 4 then
      some (.issue (0x5000 + (if width = 8 then 4 else 0) + BitVec.ofNat 16 idx))
    else none) ∧
  Asm.action .enc = some (.issue 0x1000) ∧ Asm.action .dec = some (.issue 0x2000) ∧
  Asm.action .clra = some (.issue 0x6000) ∧ Asm.action .ems = some (.issue 0x9000) ∧
  Asm.action .clrf = some (.issue 0xB000)

/-! ### The step and the host's actions (43_system.md, 60_exceptions.md) -/

/-- R144, R64: a step whose next action is the issue of a word that decodes to `i` is `exec i`, with the action taken off the
list, unless a fault is pending; CLRF runs in either case. `withFetchWord` makes any word the next action.
The model's choice in it: log 3, log 5. -/
def Obligations.StepRunsTheDecodedCommand : Prop :=
  (∀ (s : State) (w : Word) (i : Instr) (rest : List HostAction),
    s.inbox = .issue w :: rest → decode w = .ok i → (s.err = 0 ∨ i = .clrf) →
      step s = exec i { s with inbox := rest }) ∧
  (∀ (s : State) (n : Nat) (i : Instr),
    decode (BitVec.ofNat 16 n) = .ok i → n < 2 ^ 16 → (s.err = 0 ∨ i = .clrf) →
      step (s.withFetchWord 16 n) = exec i s)

/-- R151: with no fault pending an illegal word sets STATUS.ERR to 1 and changes nothing else.
The model's choice in it: log 3. -/
def Obligations.IllegalWordRaisesCodeOne : Prop :=
  ∀ (s : State) (w : Word) (e : IllegalWord) (rest : List HostAction),
    s.inbox = .issue w :: rest → decode w = .error e → s.err = 0 →
      step s = .next { s with inbox := rest, status := statusWord s.inv 1 }

/-- R160: while a fault is pending every word but 0xB000 is dropped and changes nothing; register reads, writes of DSTPOS and
DSTCAP, and bind still have their effect. The state before a dropped word is marked as a run gone wrong.
The model's choice in it: log 3, log 4, log 11. -/
def Obligations.PendingFaultDropsEveryOtherWord : Prop :=
  ∀ (s : State) (rest : List HostAction), s.err ≠ 0 →
    (∀ w : Word, w ≠ 0xB000 → s.inbox = .issue w :: rest →
      step s = .next { s with inbox := rest } ∧ s.dropsNext = true) ∧
    (∀ n, s.inbox = .readRegister n :: rest →
      step s = .next { s with inbox := rest, reply := some (registerValue n s) }) ∧
    (∀ v, s.inbox = .writeRegister 7 v :: rest → step s = .next { s with inbox := rest, dstpos := v }) ∧
    (∀ v, s.inbox = .writeRegister 8 v :: rest → step s = .next { s with inbox := rest, dstcap := v }) ∧
    (∀ src, s.inbox = .bindSource src :: rest → step s = .next { s with inbox := rest, src := src, srcpos := 0 })

/-- R168: between commands the block is idle and keeps all its state.
The model's choice in it: log 3. -/
def Obligations.IdleStepKeepsTheState : Prop :=
  ∀ s : State, s.inbox = [] → step s = .next s

/-- R24, R141, R20: a register read returns the register by its number, STATUS as `INV ++ ERR`, and 0 above number 8; it
changes nothing but the model's own `reply`.
The model's choice in it: log 3, log 4. -/
def Obligations.RegisterReadReturnsTheRegister : Prop :=
  ∀ (s : State) (rest : List HostAction) (n : Nat), s.inbox = .readRegister n :: rest →
    ∃ v, step s = .next { s with inbox := rest, reply := some v } ∧
      (n = 0 → v = s.acc.toNat) ∧ (n = 1 → v = s.cnt.toNat) ∧ (n = 2 → v = s.padc.toNat) ∧ (n = 3 → v = s.res.toNat) ∧
      (n = 4 → v = 16 * s.inv.toNat + s.err.toNat) ∧ (n = 5 → v = s.invpos.toNat) ∧ (n = 6 → v = s.srcpos.toNat) ∧
      (n = 7 → v = s.dstpos.toNat) ∧ (n = 8 → v = s.dstcap.toNat) ∧ (8 < n → v = 0)

/-- R24: every register value is one the port carries, whose width is the larger of 24 and CW.
The model's choice in it: log 1. -/
def Obligations.RegisterValuesFitThePort : Prop :=
  ∀ (s : State) (n : Nat), registerValue n s < 2 ^ Config.portWidth

/-- R142: a register write reaches DSTPOS and DSTCAP only.
The model's choice in it: log 3. -/
def Obligations.RegisterWriteReachesTheTwoCursors : Prop :=
  ∀ (s : State) (rest : List HostAction) (n : Nat) (v : Cursor), s.inbox = .writeRegister n v :: rest →
    (n = 7 → step s = .next { s with inbox := rest, dstpos := v }) ∧
    (n = 8 → step s = .next { s with inbox := rest, dstcap := v }) ∧
    (n ≠ 7 → n ≠ 8 → step s = .next { s with inbox := rest })

/-- R143: bind makes SRC the sequence and SRCPOS 0, and changes no other register.
The model's choice in it: log 3. -/
def Obligations.BindSetsTheSourceAndItsCursor : Prop :=
  ∀ (s : State) (rest : List HostAction) (src : Source), s.inbox = .bindSource src :: rest →
    step s = .next { s with inbox := rest, src := src, srcpos := 0 }

/-- R145, R29: the host reads a position of DST that has been written since the last reset; at any other the model stops,
because the spec gives no value there (the stop is the model's choice, log 7).
The model's choice in it: log 3, log 4, log 7, log 8 after a reset, and log 18 for a position that the host has written too. -/
def Obligations.DestinationReadNeedsAWrittenPosition : Prop :=
  ∀ (s : State) (rest : List HostAction) (p : Nat), s.inbox = .readDestination p :: rest →
    (∀ v, s.dst.read p = some v → step s = .next { s with inbox := rest, reply := some v.toNat }) ∧
    (s.dst.read p = none → step s = .fault (.unwrittenDestination p))

/-- R32, R180, R181: the values after reset, and that the reset input leaves them from every state, between commands and during
one. Reset does not touch what stands in DST. A reset during a command leaves there some first elements of those that the command
writes, and of nothing else of the command; how many is not known. The host's later actions still wait (the list is the model's, log 3).
The model's choice in it: log 3, log 8, log 19. -/
def Obligations.ResetLeavesTheResetValues : Prop :=
  (State.reset.acc = 0x000000 ∧ State.reset.cnt = 0 ∧ State.reset.padc = 0 ∧ State.reset.res = 0x00 ∧
    State.reset.err = 0 ∧ State.reset.inv = false ∧ State.reset.invpos = 0 ∧ State.reset.srcpos = 0 ∧
    State.reset.dstpos = 0 ∧ State.reset.dstcap = 0 ∧ State.reset.src.elements = [] ∧ srcAtEnd State.reset = true ∧
    (∀ p, State.reset.dst.read p = none)) ∧
  (∀ (s : State) (rest : List HostAction), s.inbox = .assertReset :: rest →
    ∃ t, step s = .next t ∧
      t = { State.reset with inbox := rest, leftover := t.leftover, abandoned := s.abandoned } ∧
      ∀ p, t.contents p = s.contents p) ∧
  (∀ (s : State) (rest : List HostAction) (w : Word), s.inbox = .resetDuring w :: rest → s.srcpos.toNat ≤ s.src.length →
    ∃ t u vs k, step s = .next t ∧
      t = { State.reset with inbox := rest, leftover := t.leftover, abandoned := s.abandoned + 1 } ∧
      issueWord w { s with inbox := rest } = .next u ∧ wrote s u vs ∧ k ≤ vs.length ∧
      ∀ p, t.contents p =
        if s.dstpos.toNat ≤ p ∧ p < s.dstpos.toNat + k then vs[p - s.dstpos.toNat]? else s.contents p)

/-! ### Tables and functions (10_state.md, 40_encoder.md, 41_decoder.md, 42_helpers.md) -/

/-- R25, R26: ALPHA in closed form, its codes pairwise distinct, PADSYM and that it is none of them.
The model's choice in it: log 6. -/
def Obligations.AlphabetIsTheStandardOne : Prop :=
  (∀ i : Fin 64, symbols.alpha[i] =
    if i.val ≤ 25 then BitVec.ofNat 8 (0x41 + i.val)
    else if i.val ≤ 51 then BitVec.ofNat 8 (0x61 + (i.val - 26))
    else if i.val ≤ 61 then BitVec.ofNat 8 (0x30 + (i.val - 52))
    else if i.val = 62 then 0x2B else 0x2F) ∧
  (∀ i j : Fin 64, symbols.alpha[i] = symbols.alpha[j] → i = j) ∧
  padSym = 0x3D ∧ (∀ i : Fin 64, symbols.alpha[i] ≠ padSym)

/-- R120: SymToVal is the index in ALPHA, and 64 where there is none; all its 256 values.
The model's choice in it: log 6. -/
def Obligations.SymbolToValueTable : Prop :=
  (∀ (c : Byte) (i : Fin 64), symbols.alpha[i] = c → symToVal c = i.val) ∧
  (∀ c : Byte, (∀ i : Fin 64, symbols.alpha[i] ≠ c) → symToVal c = 64) ∧
  ∀ c : Byte, symToVal c =
    if c = 0x2B then 62 else if c = 0x2F then 63
    else if 0x30 ≤ c ∧ c ≤ 0x39 then c.toNat - 0x30 + 52
    else if 0x41 ≤ c ∧ c ≤ 0x5A then c.toNat - 0x41
    else if 0x61 ≤ c ∧ c ≤ 0x7A then c.toNat - 0x61 + 26
    else 64

/-- R122: Extract is the shift and mask of its formula; field 0 is the most significant. -/
def Obligations.ExtractIsShiftAndMask : Prop :=
  ∀ (a : Acc) (i : Nat),
    (i ≤ 3 → (extract a i 6).toNat = (a.toNat >>> (24 - 6 * (i + 1))) &&& (2 ^ 6 - 1)) ∧
    (i ≤ 2 → (extract a i 8).toNat = (a.toNat >>> (24 - 8 * (i + 1))) &&& (2 ^ 8 - 1))

/-- R84: Insert8 replaces exactly one byte field, bit by bit; on a clear field it is the shift composition; its two laws. -/
def Obligations.InsertByteReplacesOneField : Prop :=
  ∀ (a : Acc) (i : Nat) (b : Byte), i ≤ 2 →
    (∀ k < 24, (insert8 a i b).getLsbD k =
      if 16 - 8 * i ≤ k ∧ k ≤ 23 - 8 * i then b.getLsbD (k - (16 - 8 * i)) else a.getLsbD k) ∧
    (extract a i 8 = 0 → insert8 a i b = a ||| (b.setWidth 24 <<< (16 - 8 * i))) ∧
    extract (insert8 a i b) i 8 = b ∧
    (∀ j ≤ 2, j ≠ i → extract (insert8 a i b) j 8 = extract a j 8)

/-- R105: Insert6 replaces exactly one 6-bit field, bit by bit, with its two laws. -/
def Obligations.InsertValueReplacesOneField : Prop :=
  ∀ (a : Acc) (i : Nat) (v : Value6), i ≤ 3 →
    (∀ k < 24, (insert6 a i v).getLsbD k =
      if 18 - 6 * i ≤ k ∧ k ≤ 23 - 6 * i then v.getLsbD (k - (18 - 6 * i)) else a.getLsbD k) ∧
    extract (insert6 a i v) i 6 = v ∧
    (∀ j ≤ 3, j ≠ i → extract (insert6 a i v) j 6 = extract a j 6)

/-- R127: the two lookups are inverse and exactly 64 codes have a value other than 64; packing and unpacking are inverse, and
the value packed from three bytes is the value packed from its own four 6-bit fields. -/
def Obligations.LookupsAndFieldsAreInverse : Prop :=
  (∀ v : Value6, symToVal (valToSym v) = v.toNat) ∧
  (∀ c : Byte, symToVal c ≠ 64 → valToSym (BitVec.ofNat 6 (symToVal c)) = c) ∧
  ((List.range 256).filter fun n => symToVal (BitVec.ofNat 8 n) != 64).length = 64 ∧
  (∀ (b0 b1 b2 : Byte) (a : Acc), a = insert8 (insert8 (insert8 0 0 b0) 1 b1) 2 b2 →
    extract a 0 8 = b0 ∧ extract a 1 8 = b1 ∧ extract a 2 8 = b2 ∧
    insert6 (insert6 (insert6 (insert6 0 0 (extract a 0 6)) 1 (extract a 1 6)) 2 (extract a 2 6)) 3 (extract a 3 6) = a) ∧
  (∀ (v0 v1 v2 v3 : Value6) (a : Acc), a = insert6 (insert6 (insert6 (insert6 0 0 v0) 1 v1) 2 v2) 3 v3 →
    extract a 0 6 = v0 ∧ extract a 1 6 = v1 ∧ extract a 2 6 = v2 ∧ extract a 3 6 = v3)

/-! ### The access primitives (20_memory.md) -/

/-- R41, R42: SrcAtEnd compares the cursor with the length; before the end SrcRead returns the element at the cursor and
advances it by one. -/
def Obligations.SourceReadAdvancesByOne : Prop :=
  ∀ s : State, (srcAtEnd s = true ↔ s.srcpos.toNat = s.src.length) ∧
    (s.srcpos.toNat ≤ s.src.length → srcAtEnd s = false →
      ∃ b c, s.src.elements[s.srcpos.toNat]? = some b ∧ c.toNat = s.srcpos.toNat + 1 ∧
        srcRead s = some (b, { s with srcpos := c }))

/-- R43, R158: DstWrite raises `Capacity` and changes nothing else when DSTPOS >= DSTCAP; otherwise it writes the element at
DSTPOS, no other position, and advances DSTPOS by one. -/
def Obligations.DestinationWriteOrCapacity : Prop :=
  ∀ (v : Byte) (s : State),
    (s.dstcap.toNat ≤ s.dstpos.toNat → dstWrite v s = .ended { s with status := statusWord s.inv 4 }) ∧
    (s.dstpos.toNat < s.dstcap.toNat → ∃ t, dstWrite v s = .running t ∧ wrote s t [v] ∧
      t = { s with dst := t.dst, dstpos := t.dstpos })

/-! ### The commands -/

/-- R80: CLRA. -/
def Obligations.ClraClearsTheGroup : Prop :=
  encode .clra = 0x6000 ∧
  ∀ s : State, s.err = 0 → exec .clra s = .next { s with acc := 0x000000, cnt := 0, padc := 0 }

/-- R81: PK8, packing below count 3 and `GroupState` from count 3 on. -/
def Obligations.PackByteCommand : Prop :=
  ∀ (b : Byte) (s : State), encode (.pk8 b) = 0x7000 + b.setWidth 16 ∧ (s.err = 0 →
    (s.cnt.toNat < 3 →
      exec (.pk8 b) s = .next { s with acc := insert8 s.acc s.cnt.toNat b, cnt := s.cnt + 1 }) ∧
    (3 ≤ s.cnt.toNat → exec (.pk8 b) s = .next { s with status := statusWord s.inv 3 }))

/-- R100: PK6, packing below count 4, with the pad count and the flags, and `GroupState` at count 4; the same pseudocode inside DEC,
where `pos` is any position. -/
def Obligations.PackSymbolCommand : Prop :=
  ∀ (c : Byte) (s : State), encode (.pk6 c) = 0x8000 + c.setWidth 16 ∧ (s.err = 0 →
    (s.cnt.toNat < 4 →
      exec (.pk6 c) s = .next { s with
        padc   := if c = 0x3D then BitVec.ofNat 2 (min (s.padc.toNat + 1) 2) else 0
        status := statusWord (s.inv || invalidSymbol c) 0
        invpos := if invalidSymbol c = true ∧ s.inv = false then s.cnt.setWidth Config.CW else s.invpos
        acc    := insert6 s.acc s.cnt.toNat (symbolValue c)
        cnt    := s.cnt + 1 }) ∧
    (4 ≤ s.cnt.toNat → exec (.pk6 c) s = .next { s with status := statusWord s.inv 3 }) ∧
    (∀ pos, s.cnt.toNat < 4 →
      packSymbol c pos s = .running { s with
        padc   := if c = 0x3D then BitVec.ofNat 2 (min (s.padc.toNat + 1) 2) else 0
        status := statusWord (s.inv || invalidSymbol c) 0
        invpos := if invalidSymbol c = true ∧ s.inv = false then pos else s.invpos
        acc    := insert6 s.acc s.cnt.toNat (symbolValue c)
        cnt    := s.cnt + 1 }))

/-- R82: EMS with room writes four symbols, each by its 6-bit field or the padding symbol; without room it writes those that fit,
leaves DSTPOS at the failing position and sets `Capacity`; for CNT 0 and 4 it sets `GroupState` whatever the capacity. -/
def Obligations.EmitSymbolsCommand : Prop :=
  encode .ems = 0x9000 ∧ ∀ s : State, s.err = 0 →
    (s.cnt = 0 ∨ s.cnt = 4 → exec .ems s = .next { s with status := statusWord s.inv 3 }) ∧
    (s.cnt ≠ 0 → s.cnt ≠ 4 → 4 ≤ s.room →
      ∃ t, exec .ems s = .next t ∧ t = { s with dst := t.dst, dstpos := t.dstpos } ∧
        wrote s t
          [valToSym (extract s.acc 0 6), valToSym (extract s.acc 1 6),
           if 2 ≤ s.cnt.toNat then valToSym (extract s.acc 2 6) else 0x3D,
           if 3 ≤ s.cnt.toNat then valToSym (extract s.acc 3 6) else 0x3D]) ∧
    (s.cnt ≠ 0 → s.cnt ≠ 4 → s.room < 4 →
      ∃ t, exec .ems s = .next t ∧
        t = { s with dst := t.dst, dstpos := t.dstpos, status := statusWord s.inv 4 } ∧
        t.dstpos.toNat = max s.dstpos.toNat s.dstcap.toNat ∧
        wrote s t
          (List.take s.room
            [valToSym (extract s.acc 0 6), valToSym (extract s.acc 1 6),
             if 2 ≤ s.cnt.toNat then valToSym (extract s.acc 2 6) else 0x3D,
             if 3 ≤ s.cnt.toNat then valToSym (extract s.acc 3 6) else 0x3D]))

/-- R101: EMB with room writes its bytes, three or `3 - PADC` with `fin` = 1; without room it writes those that fit, leaves DSTPOS
at the failing position and sets `Capacity`; for CNT 0 it sets `GroupState` whatever the capacity. -/
def Obligations.EmitBytesCommand : Prop :=
  ∀ (fin : Bool) (s : State), encode (.emb fin) = 0xA000 + (BitVec.ofBool fin).setWidth 16 ∧ (s.err = 0 →
    (s.cnt = 0 → exec (.emb fin) s = .next { s with status := statusWord s.inv 3 }) ∧
    (s.cnt ≠ 0 → (if fin then 3 - s.padc.toNat else 3) ≤ s.room →
      ∃ t, exec (.emb fin) s = .next t ∧
        t = { s with dst := t.dst, dstpos := t.dstpos } ∧
        wrote s t ([extract s.acc 0 8, extract s.acc 1 8, extract s.acc 2 8].take
          (if fin then 3 - s.padc.toNat else 3))) ∧
    (s.cnt ≠ 0 → s.room < (if fin then 3 - s.padc.toNat else 3) →
      ∃ t, exec (.emb fin) s = .next t ∧
        t = { s with dst := t.dst, dstpos := t.dstpos, status := statusWord s.inv 4 } ∧
        t.dstpos.toNat = max s.dstpos.toNat s.dstcap.toNat ∧
        wrote s t ([extract s.acc 0 8, extract s.acc 1 8, extract s.acc 2 8].take s.room)))

/-- R123: S2V. -/
def Obligations.SymbolToValueCommand : Prop :=
  ∀ (c : Byte) (s : State), encode (.s2v c) = 0x3000 + c.setWidth 16 ∧
    (s.err = 0 → exec (.s2v c) s = .next { s with res := BitVec.ofNat 8 (symToVal c) })

/-- R124: V2S, and `Range` for 64 and more. -/
def Obligations.ValueToSymbolCommand : Prop :=
  ∀ (v : Byte) (s : State), encode (.v2s v) = 0x4000 + v.setWidth 16 ∧ (s.err = 0 →
    (∀ h : v.toNat < 64, exec (.v2s v) s = .next { s with res := symbols.alpha[v.toNat] }) ∧
    (64 ≤ v.toNat → exec (.v2s v) s = .next { s with status := statusWord s.inv 2 }))

/-- R125: XBIT, and `Range` for width 8 and index 3. -/
def Obligations.ExtractFieldCommand : Prop :=
  ∀ (idx : BitVec 2) (s : State),
    encode (.xbit .six idx) = 0x5000 + idx.setWidth 16 ∧ encode (.xbit .eight idx) = 0x5004 + idx.setWidth 16 ∧
    (s.err = 0 →
      exec (.xbit .six idx) s = .next { s with res := (extract s.acc idx.toNat 6).setWidth 8 } ∧
      (idx.toNat < 3 → exec (.xbit .eight idx) s = .next { s with res := extract s.acc idx.toNat 8 }) ∧
      (idx = 3 → exec (.xbit .eight idx) s = .next { s with status := statusWord s.inv 2 }))

/-- R140: CLRF, with or without a pending fault; 0xB000 is its only word. -/
def Obligations.ClearFaultCommand : Prop :=
  encode .clrf = 0xB000 ∧ (∀ w : Word, decode w = .ok .clrf → w = 0xB000) ∧
  ∀ s : State, exec .clrf s = .next { s with status := 0, invpos := 0 }

/-- R83, R85, R86: ENC with enough room writes the text of what remains of the source, ends with the source consumed and the
last group in ACC and CNT, and changes nothing else; on an empty rest it changes nothing at all. -/
def Obligations.EncodeCommandWritesTheText : Prop :=
  encode .enc = 0x1000 ∧ ∀ s : State, s.err = 0 → s.srcpos.toNat ≤ s.src.length →
    4 * ceilDiv s.remaining.length 3 ≤ s.room →
      ∃ t, exec .enc s = .next t ∧ wrote s t (encodedText s.remaining) ∧
        t = { s with acc := t.acc, cnt := t.cnt, padc := t.padc, srcpos := t.srcpos, dst := t.dst, dstpos := t.dstpos } ∧
        t.srcpos.toNat = s.src.length ∧
        (s.remaining = [] → t = s) ∧
        (s.remaining ≠ [] → t.padc = 0 ∧ t.cnt.toNat = (lastGroup 3 s.remaining).length ∧
          ∀ k < 3, extract t.acc k 8 = (lastGroup 3 s.remaining).getD k 0)

/-- R83, R154, R159: ENC without enough room writes what fits, has consumed the group it was emitting and all before it, holds
that group, and sets `Capacity`. -/
def Obligations.EncodeWithoutRoomIsPrecise : Prop :=
  ∀ s : State, s.err = 0 → s.srcpos.toNat ≤ s.src.length → s.room < 4 * ceilDiv s.remaining.length 3 →
    ∃ t group, group = groupAt 3 (s.room / 4) s.remaining ∧
      exec .enc s = .next t ∧ wrote s t ((encodedText s.remaining).take s.room) ∧
      t = { s with acc := t.acc, cnt := t.cnt, padc := 0, status := statusWord s.inv 4, dst := t.dst,
                   dstpos := t.dstpos, srcpos := t.srcpos } ∧
      t.dstpos.toNat = max s.dstpos.toNat s.dstcap.toNat ∧
      t.srcpos.toNat = s.srcpos.toNat + 3 * (s.room / 4) + group.length ∧ t.cnt.toNat = group.length ∧
      ∀ k < 3, extract t.acc k 8 = group.getD k 0

/-- R102, R100, R106, R23: DEC with enough room writes the bytes of what remains of the source, ends with the source consumed,
the last group in ACC, CNT and PADC, INV set when a symbol was invalid and INVPOS at the first of them; nothing else changes. -/
def Obligations.DecodeCommandWritesTheBytes : Prop :=
  encode .dec = 0x2000 ∧ ∀ s : State, s.err = 0 → s.srcpos.toNat ≤ s.src.length →
    (decodedBytes s.remaining).length ≤ s.room →
      ∃ t, exec .dec s = .next t ∧ wrote s t (decodedBytes s.remaining) ∧
        t = { s with acc := t.acc, cnt := t.cnt, padc := t.padc, srcpos := t.srcpos, dst := t.dst, dstpos := t.dstpos,
                     status := statusWord (s.inv || s.remaining.any invalidSymbol) 0, invpos := t.invpos } ∧
        t.srcpos.toNat = s.src.length ∧
        t.invpos.toNat = invposAfterAll s.remaining s.srcpos.toNat s.inv s.invpos.toNat ∧
        (s.remaining = [] → t = s) ∧
        (s.remaining ≠ [] → t.padc.toNat = padCount (lastGroup 4 s.remaining) ∧
          t.cnt.toNat = (lastGroup 4 s.remaining).length ∧
          ∀ k < 4, extract t.acc k 6 = symbolValue ((lastGroup 4 s.remaining).getD k 0x41))

/-- R102, R154, R159: DEC without enough room writes what fits, has consumed the group it was emitting and all before it, holds
that group, and sets `Capacity`. -/
def Obligations.DecodeWithoutRoomIsPrecise : Prop :=
  ∀ s : State, s.err = 0 → s.srcpos.toNat ≤ s.src.length → s.room < (decodedBytes s.remaining).length →
    ∃ t group read, group = groupAt 4 (s.room / 3) s.remaining ∧ read = s.remaining.take (4 * (s.room / 3) + 4) ∧
      exec .dec s = .next t ∧ wrote s t ((decodedBytes s.remaining).take s.room) ∧
      t = { s with acc := t.acc, cnt := t.cnt, padc := t.padc, dst := t.dst, dstpos := t.dstpos,
                   srcpos := t.srcpos, status := statusWord (s.inv || read.any invalidSymbol) 4, invpos := t.invpos } ∧
      t.dstpos.toNat = max s.dstpos.toNat s.dstcap.toNat ∧
      t.srcpos.toNat = s.srcpos.toNat + 4 * (s.room / 3) + group.length ∧
      t.invpos.toNat = invposAfterAll read s.srcpos.toNat s.inv s.invpos.toNat ∧
      t.cnt.toNat = group.length ∧ t.padc.toNat = padCount group ∧
      ∀ k < 4, extract t.acc k 6 = symbolValue (group.getD k 0x41)

/-! ### Laws of the encoder and the decoder -/

/-- R86: the output length of ENC. -/
def Obligations.EncodeLengthLaw : Prop :=
  ∀ s : State, s.err = 0 → s.srcpos = 0 → 4 * ceilDiv s.src.length 3 ≤ s.room →
    ∃ t, exec .enc s = .next t ∧ t.status = s.status ∧ t.dstpos.toNat = s.dstpos.toNat + 4 * ceilDiv s.src.length 3

/-- R107: the output length of DEC, for every source length, and the document's own form for a multiple of four. -/
def Obligations.DecodeLengthLaw : Prop :=
  ∀ s : State, s.err = 0 → s.srcpos = 0 → 3 * ceilDiv s.src.length 4 ≤ s.room →
    ∃ t, exec .dec s = .next t ∧ t.err = 0 ∧
      (s.src.elements = [] → t.dstpos = s.dstpos) ∧
      (s.src.elements ≠ [] →
        t.dstpos.toNat + padCount (lastGroup 4 s.src.elements) = s.dstpos.toNat + 3 * ceilDiv s.src.length 4) ∧
      (s.src.elements ≠ [] → s.src.length % 4 = 0 →
        t.dstpos.toNat + padCount (lastGroup 4 s.src.elements) = s.dstpos.toNat + 3 * (s.src.length / 4))

/-- R87, 95_test_vectors.md W5: every element ENC or EMS writes is one of the 64 codes or PADSYM, and ENC writes PADSYM only at
the end: 0, 2, 1 times for n mod 3 = 0, 1, 2. -/
def Obligations.EncoderOutputIsInTheAlphabet : Prop :=
  (∀ (i : Instr) (s t : State), i = .enc ∨ i = .ems → exec i s = .next t →
    ∀ p, s.dstpos.toNat ≤ p → p < t.dstpos.toNat →
      ∃ v, t.dst.read p = some v ∧ (v ∈ symbols.alpha.toList ∨ v = padSym)) ∧
  (∀ s : State, s.err = 0 → s.srcpos = 0 → 4 * ceilDiv s.src.length 3 ≤ s.room →
    ∃ t, exec .enc s = .next t ∧ ∀ k < 4 * ceilDiv s.src.length 3,
      (t.dst.read (s.dstpos.toNat + k) = some padSym ↔ 4 * ceilDiv s.src.length 3 ≤ k + textPadding s.src.length))

/-- R108: decoding what ENC wrote gives the source back, with no flag and no fault, in any state with enough room. -/
def Obligations.DecodeOfEncodeGivesTheSource : Prop :=
  ∀ s : State, s.err = 0 → s.srcpos = 0 → 4 * ceilDiv s.src.length 3 ≤ s.room →
    ∃ t text, exec .enc s = .next t ∧ wrote s t text ∧
      ∀ u : State, u.err = 0 → u.src.elements = text → u.srcpos = 0 → s.src.length ≤ u.room →
        ∃ v, exec .dec u = .next v ∧ wrote u v s.src.elements ∧ v.status = u.status ∧ v.invpos = u.invpos

/-- R88: ENC does what the group commands do, issued one by one, whatever the capacity: the states are equal but for SRCPOS,
which only ENC advances, and the list of waiting actions.
The model's choice in it: log 3. -/
def Obligations.EncodeEqualsItsGroupCommands : Prop :=
  ∀ s : State, s.err = 0 → s.srcpos.toNat ≤ s.src.length →
    ∃ t u, exec .enc s = .next t ∧
      stepsTo (encodeCommands s.remaining).length { s with inbox := issues (encodeCommands s.remaining) } u ∧
      u = { t with srcpos := s.srcpos, inbox := [] }

/-- R109: DEC of a source without invalid symbols does what the group commands do, issued one by one, whatever the capacity:
the states are equal but for SRCPOS, which only DEC advances, and the list of waiting actions.
The model's choice in it: log 3. -/
def Obligations.DecodeEqualsItsGroupCommands : Prop :=
  ∀ s : State, s.err = 0 → s.srcpos.toNat ≤ s.src.length → s.remaining.any invalidSymbol = false →
    ∃ t u, exec .dec s = .next t ∧
      stepsTo (decodeCommands s.remaining).length { s with inbox := issues (decodeCommands s.remaining) } u ∧
      u = { t with srcpos := s.srcpos, inbox := [] }

/-- R106, R13: after CLRA and PK6 of up to four symbols PADC is the run of `=` that ends at the last of them, at most 2.
The model's choice in it: log 3. -/
def Obligations.PadCountIsTheTrailingRun : Prop :=
  ∀ (group : List Byte) (s : State), s.err = 0 → group.length ≤ 4 →
    ∃ t, stepsTo (group.length + 1) { s with inbox := issues (.clra :: group.map .pk6) } t ∧
      t.padc.toNat = padCount group ∧ t.cnt.toNat = group.length ∧ t.err = 0

/-- R83, R102: ENC and DEC are their loops: nothing at the end of the source, and before it one group and then, unless a fault has
ended the command, the command again. -/
def Obligations.StreamCommandsAreTheirLoops : Prop :=
  ∀ s : State, s.srcpos.toNat ≤ s.src.length →
    (s.srcpos.toNat = s.src.length → exec .enc s = .next s ∧ exec .dec s = .next s) ∧
    (s.srcpos.toNat < s.src.length →
      (∃ t, s.srcpos.toNat < t.srcpos.toNat ∧ t.srcpos.toNat ≤ s.src.length ∧ t.src = s.src ∧
        ((encodeGroup s = .running t ∧ exec .enc s = exec .enc t) ∨ (encodeGroup s = .ended t ∧ exec .enc s = .next t))) ∧
      (∃ t, s.srcpos.toNat < t.srcpos.toNat ∧ t.srcpos.toNat ≤ s.src.length ∧ t.src = s.src ∧
        ((decodeGroup s = .running t ∧ exec .dec s = exec .dec t) ∨ (decodeGroup s = .ended t ∧ exec .dec s = .next t))))

/-- R83, R102, R191: `sourceFuel` tests are enough for the loops of ENC and DEC: more change nothing, so the loops end by the
source's end or by a fault and never by the cut-off. -/
def Obligations.LoopsEndBeforeTheCutOff : Prop :=
  ∀ (s : State) (more : Nat), s.srcpos.toNat ≤ s.src.length →
    whileSource encodeGroup (sourceFuel s + more) s = whileSource encodeGroup (sourceFuel s) s ∧
    whileSource decodeGroup (sourceFuel s + more) s = whileSource decodeGroup (sourceFuel s) s ∧
    (∀ t, whileSource encodeGroup (sourceFuel s) s = .running t → srcAtEnd t = true) ∧
    (∀ t, whileSource decodeGroup (sourceFuel s) s = .running t → srcAtEnd t = true)

/-! ### Faults (60_exceptions.md) -/

/-- R158, R150: a raise writes the code of the fault to STATUS.ERR and ends the command; INV and every other register keep
their values. -/
def Obligations.RaiseWritesOnlyTheFaultCode : Prop :=
  ∀ (f : BlockFault) (s : State), ∃ t, raise f s = .ended t ∧ t = { s with status := t.status } ∧ t.inv = s.inv ∧
    t.err = (match f with | .illegalCommand => 1 | .range => 2 | .groupState => 3 | .capacity => 4)

/-- R157: the first fault in the order of the rule is the one raised: a pending fault drops an illegal word; an illegal word is
decoded before anything runs; an entry check comes before the capacity.
The model's choice in it: log 3. -/
def Obligations.FaultPriorityOrder : Prop :=
  ∀ (s : State) (w : Word) (rest : List HostAction), s.inbox = .issue w :: rest →
    (s.err ≠ 0 → w ≠ 0xB000 → step s = .next { s with inbox := rest }) ∧
    (s.err = 0 → (∃ e, decode w = .error e) → step s = .next { s with inbox := rest, status := statusWord s.inv 1 }) ∧
    (s.err = 0 → w = 0x9000 → s.cnt = 0 ∨ s.cnt = 4 → s.dstcap.toNat ≤ s.dstpos.toNat →
      step s = .next { s with inbox := rest, status := statusWord s.inv 3 }) ∧
    (∀ fin, s.err = 0 → w = 0xA000 + (BitVec.ofBool fin).setWidth 16 → s.cnt = 0 → s.dstcap.toNat ≤ s.dstpos.toNat →
      step s = .next { s with inbox := rest, status := statusWord s.inv 3 })

/-- R153, R83, R102: ENC and DEC raise `Capacity` and no other fault. -/
def Obligations.StreamCommandsRaiseOnlyCapacity : Prop :=
  ∀ (i : Instr) (s t : State), i = .enc ∨ i = .dec → s.err = 0 → exec i s = .next t → t.err = 0 ∨ t.err = 4

/-- R21: ERR records the first fault since the last clear: a step changes a pending ERR only to 0, and only by CLRF or reset.
The model's choice in it: log 3. -/
def Obligations.PendingFaultStaysUntilCleared : Prop :=
  ∀ s t : State, s.err ≠ 0 → step s = .next t → t.err ≠ s.err →
    t.err = 0 ∧ ∃ rest, s.inbox = .issue 0xB000 :: rest ∨ s.inbox = .assertReset :: rest ∨
      ∃ w, s.inbox = .resetDuring w :: rest

/-- R22, R180: INV is cleared by CLRF and reset only.
The model's choice in it: log 3. -/
def Obligations.InvalidFlagIsSticky : Prop :=
  ∀ s t : State, s.inv = true → step s = .next t → t.inv = false →
    ∃ rest, s.inbox = .issue 0xB000 :: rest ∨ s.inbox = .assertReset :: rest ∨ ∃ w, s.inbox = .resetDuring w :: rest

/-- R22, R23: outside CLRF and reset, INVPOS changes only in a step in which INV goes from 0 to 1, and that is a PK6 or a DEC. -/
def Obligations.InvposIsWrittenWhenInvRises : Prop :=
  ∀ (i : Instr) (s t : State), i ≠ .clrf → exec i s = .next t →
    (t.invpos ≠ s.invpos → s.inv = false ∧ t.inv = true) ∧
    (t.inv ≠ s.inv → s.inv = false ∧ (i = .dec ∨ ∃ c, i = .pk6 c))

/-! ### Frames and whole-machine rules -/

/-- R24, last column: which commands change which register. -/
def Obligations.RegistersChangeOnlyByTheirCommands : Prop :=
  ∀ (i : Instr) (s t : State), exec i s = .next t →
    (t.acc ≠ s.acc → i = .clra ∨ (∃ b, i = .pk8 b) ∨ (∃ c, i = .pk6 c) ∨ i = .enc ∨ i = .dec) ∧
    (t.cnt ≠ s.cnt → i = .clra ∨ (∃ b, i = .pk8 b) ∨ (∃ c, i = .pk6 c) ∨ i = .enc ∨ i = .dec) ∧
    (t.padc ≠ s.padc → i = .clra ∨ (∃ c, i = .pk6 c) ∨ i = .enc ∨ i = .dec) ∧
    (t.res ≠ s.res → (∃ c, i = .s2v c) ∨ (∃ v, i = .v2s v) ∨ ∃ w x, i = .xbit w x) ∧
    (t.inv ≠ s.inv → (∃ c, i = .pk6 c) ∨ i = .dec ∨ i = .clrf) ∧
    (t.invpos ≠ s.invpos → (∃ c, i = .pk6 c) ∨ i = .dec ∨ i = .clrf) ∧
    (t.srcpos ≠ s.srcpos → i = .enc ∨ i = .dec) ∧
    (t.dstpos ≠ s.dstpos → i = .ems ∨ (∃ f, i = .emb f) ∨ i = .enc ∨ i = .dec) ∧
    t.dstcap = s.dstcap ∧ t.src = s.src ∧ t.leftover = s.leftover ∧ t.inbox = s.inbox ∧ t.reply = s.reply ∧
    t.abandoned = s.abandoned

/-- R40, R43, R50: a command writes DST from DSTPOS on, without a gap and below DSTCAP, every other position reads as before,
and only EMS, EMB, ENC and DEC write. -/
def Obligations.DestinationChangesOnlyBelowTheCapacity : Prop :=
  ∀ (i : Instr) (s t : State), exec i s = .next t →
    s.dstpos.toNat ≤ t.dstpos.toNat ∧ (s.dstpos.toNat < t.dstpos.toNat → t.dstpos.toNat ≤ s.dstcap.toNat) ∧
    (∀ p, s.dstpos.toNat ≤ p → p < t.dstpos.toNat → ∃ v, t.dst.read p = some v) ∧
    (∀ p, p < s.dstpos.toNat ∨ t.dstpos.toNat ≤ p → t.dst.read p = s.dst.read p) ∧
    (t.dst ≠ s.dst → i = .ems ∨ (∃ f, i = .emb f) ∨ i = .enc ∨ i = .dec)

/-- R29, R40, R51: no command reads DST: with another destination a command does the same to everything else and writes the
same elements. -/
def Obligations.CommandsDoNotReadTheDestination : Prop :=
  ∀ (i : Instr) (s t : State) (m : Memory), exec i s = .next t →
    ∃ m' vs, exec i { s with dst := m } = .next { t with dst := m' } ∧ wrote s t vs ∧
      ∀ p, Memory.read m' p =
        if s.dstpos.toNat ≤ p ∧ p < s.dstpos.toNat + vs.length then vs[p - s.dstpos.toNat]? else Memory.read m p

/-- R144: an issued command never stops the machine in a state that R31 allows. -/
def Obligations.CommandsAlwaysEndInANextState : Prop :=
  ∀ (i : Instr) (s : State), s.srcpos.toNat ≤ s.src.length → ∃ t, exec i s = .next t

/-- R31, R32: the invariant holds after reset.
The model's choice in it: log 12. -/
def Obligations.ResetSatisfiesTheInvariant : Prop := State.reset.Inv

/-- R31: every step keeps the invariant, from every state that has it.
The model's choice in it: log 12. -/
def Obligations.StepKeepsTheInvariant : Prop :=
  ∀ s t : State, s.Inv → step s = .next t → t.Inv

/-- R31: the invariant holds in every state a run reaches, whatever the host does between steps.
The model's choice in it: log 3, log 12. -/
def Obligations.ReachableStatesSatisfyTheInvariant : Prop :=
  ∀ s : State, Reachable s → s.Inv
end

