-- ==== Sys2Proof/Laws/Memory.lean ====
section
/-!
SUPPORT. The laws of the destination: read after write, canonical form kept, and equal maps are equal lists.
-/

namespace Sys2Proof.Machine.Memory

/-- A write gives its position the element and leaves every other position alone, in any list. -/
theorem read_write (m : Memory) (p q : Nat) (v : Byte) :
    (m.write p v).read q = if q = p then some v else m.read q := by
  induction m with
  | nil => simp [write, read, eq_comm]
  | cons c m ih =>
    simp only [write]
    split
    · simp only [read, eq_comm]
    · split
      · rename_i hpc
        simp only [read, eq_comm, hpc]
        split <;> simp_all
      · have hne : p ≠ c.1 := by assumption
        simp only [read, ih]
        split
        · rename_i hc
          rw [if_neg]; omega
        · rfl

@[simp] theorem read_nil (p : Nat) : Memory.read [] p = none := rfl

/-- An entry of the list after a write is the written one or one of before. -/
theorem mem_write {m : Memory} {p : Nat} {v : Byte} {c : Host.Cell} (h : c ∈ m.write p v) :
    c = (p, v) ∨ c ∈ m := by
  induction m with
  | nil => simpa [write] using h
  | cons d m ih =>
    simp only [write] at h
    split at h
    · simpa using h
    · split at h
      · rcases List.mem_cons.1 h with h | h
        · exact .inl h
        · exact .inr (List.mem_cons_of_mem _ h)
      · rcases List.mem_cons.1 h with h | h
        · exact .inr (h ▸ List.mem_cons_self)
        · exact (ih h).imp id (List.mem_cons_of_mem _)

/-- A write keeps the canonical form. -/
theorem write_wf {m : Memory} (h : m.wf) (p : Nat) (v : Byte) : (m.write p v).wf := by
  induction m with
  | nil => simp [write, wf]
  | cons c m ih =>
    have hm := List.pairwise_cons.1 h
    simp only [write]
    split
    · refine List.pairwise_cons.2 ⟨fun d hd => ?_, h⟩
      rcases List.mem_cons.1 hd with rfl | hd
      · assumption
      · exact lt_trans ‹_› (hm.1 d hd)
    · split
      · rename_i hpc
        exact List.pairwise_cons.2 ⟨fun d hd => by have := hm.1 d hd; simp only; omega, hm.2⟩
      · refine List.pairwise_cons.2 ⟨fun d hd => ?_, ih hm.2⟩
        rcases mem_write hd with rfl | hd
        · simp only; omega
        · exact hm.1 d hd

/-- Successive writes keep the canonical form. -/
theorem writeAll_wf {m : Memory} (h : m.wf) (p : Nat) (vs : List Byte) : (m.writeAll p vs).wf := by
  induction vs generalizing m p with
  | nil => exact h
  | cons v vs ih => exact ih (write_wf h p v) (p + 1)

/-- Successive writes fill exactly the positions from `p` on, in order. -/
theorem read_writeAll (m : Memory) (p q : Nat) (vs : List Byte) :
    (m.writeAll p vs).read q = if p ≤ q ∧ q < p + vs.length then vs[q - p]? else m.read q := by
  induction vs generalizing m p with
  | nil => rw [if_neg (by simp only [List.length_nil]; omega)]; rfl
  | cons v vs ih =>
    simp only [writeAll, ih, read_write, List.length_cons]
    by_cases hq : q = p
    · subst hq; simp
    · by_cases hin : p + 1 ≤ q ∧ q < p + 1 + vs.length
      · have : q - p = (q - (p + 1)) + 1 := by omega
        rw [if_pos hin, if_pos (by omega), this, List.getElem?_cons_succ]
      · rw [if_neg hin, if_neg hq, if_neg (by omega)]

/-- Two stretches written one after the other are one stretch. -/
theorem writeAll_append (m : Memory) (p : Nat) (vs ws : List Byte) :
    m.writeAll p (vs ++ ws) = (m.writeAll p vs).writeAll (p + vs.length) ws := by
  induction vs generalizing m p with
  | nil => rfl
  | cons v vs ih => simp [writeAll, ih, Nat.add_assoc, Nat.add_comm 1]

/-- The positions that a stretch of writes adds. -/
theorem mem_writeAll {m : Memory} {p : Nat} {vs : List Byte} {c : Host.Cell} (h : c ∈ m.writeAll p vs) :
    c ∈ m ∨ p ≤ c.1 ∧ c.1 < p + vs.length := by
  induction vs generalizing m p with
  | nil => exact .inl h
  | cons v vs ih =>
    rcases ih h with h | h
    · rcases mem_write h with rfl | h
      · exact .inr ⟨le_refl _, by simp⟩
      · exact .inl h
    · exact .inr ⟨by omega, by simp only [List.length_cons]; omega⟩

/-- A position below every listed one has no value. -/
theorem read_eq_none_of_lt {m : Memory} {p : Nat} (h : ∀ c ∈ m, p < c.1) : m.read p = none := by
  induction m with
  | nil => rfl
  | cons c m ih =>
    have hc := h c List.mem_cons_self
    rw [read, if_neg (by omega)]
    exact ih fun d hd => h d (List.mem_cons_of_mem _ hd)

/-- Equal memories are equal data: two canonical lists that read alike are the same list. -/
theorem eq_of_read_eq {m n : Memory} (hm : m.wf) (hn : n.wf) (h : ∀ p, m.read p = n.read p) : m = n := by
  induction m generalizing n with
  | nil =>
    cases n with
    | nil => rfl
    | cons d n => simpa [read] using h d.1
  | cons c m ih =>
    have hm' := List.pairwise_cons.1 hm
    cases n with
    | nil => simpa [read] using h c.1
    | cons d n =>
      have hn' := List.pairwise_cons.1 hn
      have key : c.1 = d.1 := by
        rcases lt_trichotomy c.1 d.1 with hlt | heq | hlt
        · have h1 := h c.1
          rw [read_eq_none_of_lt (m := d :: n) (p := c.1) (by
            intro e he
            rcases List.mem_cons.1 he with rfl | he
            · exact hlt
            · exact lt_trans hlt (hn'.1 e he))] at h1
          simp [read] at h1
        · exact heq
        · have h1 := h d.1
          rw [read_eq_none_of_lt (m := c :: m) (p := d.1) (by
            intro e he
            rcases List.mem_cons.1 he with rfl | he
            · exact hlt
            · exact lt_trans hlt (hm'.1 e he))] at h1
          simp [read] at h1
      have hv : c.2 = d.2 := by simpa [read, key] using h c.1
      have hcd : c = d := Prod.ext key hv
      subst hcd
      congr 1
      refine ih hm'.2 hn'.2 fun p => ?_
      by_cases hp : c.1 = p
      · subst hp
        rw [read_eq_none_of_lt hm'.1, read_eq_none_of_lt hn'.1]
      · simpa [read, hp] using h p

/-- An overlay reads as its upper map, and as its lower one where the upper one lists nothing. -/
theorem read_overlay (top under : Memory) (p : Nat) : (top.overlay under).read p = (top.read p).or (under.read p) := by
  induction top with
  | nil => rfl
  | cons c top ih =>
    show (write (overlay top under) c.1 c.2).read p = _
    rw [read_write, read, ih]
    by_cases hp : p = c.1
    · simp [hp]
    · rw [if_neg hp, if_neg (Ne.symm hp)]

/-- An overlay on a canonical map is canonical. -/
theorem overlay_wf (top : Memory) {under : Memory} (h : under.wf) : (top.overlay under).wf := by
  induction top with
  | nil => exact h
  | cons c top ih => exact write_wf ih c.1 c.2

/-- An entry of an overlay is one of its two maps. -/
theorem mem_overlay {top under : Memory} {c : Host.Cell} (h : c ∈ top.overlay under) : c ∈ top ∨ c ∈ under := by
  induction top with
  | nil => exact .inr h
  | cons d top ih =>
    rcases mem_write (m := overlay top under) h with rfl | h
    · exact .inl List.mem_cons_self
    · exact (ih h).imp (List.mem_cons_of_mem _) id

/-- The destination after reset has the canonical form (R32). -/
theorem reset_wf : State.reset.dst.wf := List.Pairwise.nil

end Sys2Proof.Machine.Memory
end

