-- ==== Sys2Proof/Laws/State.lean ====
section
/-!
SUPPORT. One lemma per field for each named update of State, and the fields of STATUS after each update of STATUS.
-/

namespace Sys2Proof.Machine

theorem statusWord_err (b : Bool) (e : BitVec 4) : (statusWord b e).extractLsb' 0 4 = e := by
  cases b <;> revert e <;> decide

theorem statusWord_inv (b : Bool) (e : BitVec 4) : (statusWord b e).getLsbD 4 = b := by
  cases b <;> revert e <;> decide

/-- STATUS is its two fields (R20). -/
theorem statusWord_fields (s : State) : statusWord s.inv s.err = s.status := by
  unfold State.inv State.err
  generalize s.status = w
  revert w
  decide

namespace State

variable (s : State) (e : BitVec 4) (a : HostAction)

@[simp] theorem setErr_acc : (s.setErr e).acc = s.acc := rfl
@[simp] theorem setErr_cnt : (s.setErr e).cnt = s.cnt := rfl
@[simp] theorem setErr_padc : (s.setErr e).padc = s.padc := rfl
@[simp] theorem setErr_res : (s.setErr e).res = s.res := rfl
@[simp] theorem setErr_invpos : (s.setErr e).invpos = s.invpos := rfl
@[simp] theorem setErr_srcpos : (s.setErr e).srcpos = s.srcpos := rfl
@[simp] theorem setErr_dstpos : (s.setErr e).dstpos = s.dstpos := rfl
@[simp] theorem setErr_dstcap : (s.setErr e).dstcap = s.dstcap := rfl
@[simp] theorem setErr_src : (s.setErr e).src = s.src := rfl
@[simp] theorem setErr_dst : (s.setErr e).dst = s.dst := rfl
@[simp] theorem setErr_leftover : (s.setErr e).leftover = s.leftover := rfl
@[simp] theorem setErr_inbox : (s.setErr e).inbox = s.inbox := rfl
@[simp] theorem setErr_reply : (s.setErr e).reply = s.reply := rfl
@[simp] theorem setErr_abandoned : (s.setErr e).abandoned = s.abandoned := rfl
@[simp] theorem setErr_err : (s.setErr e).err = e := statusWord_err _ _
@[simp] theorem setErr_inv : (s.setErr e).inv = s.inv := statusWord_inv _ _

@[simp] theorem post_inbox : (s.post a).inbox = s.inbox ++ [a] := rfl

/-- Putting an action behind the others changes no item of R10. -/
theorem post_rest : s.post a = { s with inbox := (s.post a).inbox } := rfl

/-- The word that `withFetchWord` stores is the next action, and nothing else changes. -/
theorem withFetchWord_eq (nbits w : Nat) :
    s.withFetchWord nbits w = { s with inbox := .issue (BitVec.ofNat 16 (w % 2 ^ nbits)) :: s.inbox } := rfl

end State

/-! ### Cursors (R6, R17, R18) -/

/-- A cursor moved on by `n` elements, in CW bits. -/
def forward (c : Cursor) (n : Nat) : Cursor := c + BitVec.ofNat _ n

@[simp] theorem forward_zero (c : Cursor) : forward c 0 = c := by simp [forward]

/-- Moving on twice is moving on once by the sum. -/
@[simp] theorem forward_forward (c : Cursor) (m n : Nat) : forward (forward c m) n = forward c (m + n) := by
  simp [forward, BitVec.add_assoc, BitVec.ofNat_add]

/-- Moving on by no more than is left below a number a cursor can hold does not wrap. -/
theorem toNat_forward {c : Cursor} {n limit : Nat} (h : n ≤ limit - c.toNat) (fits : limit < Config.cursorLimit) :
    (forward c n).toNat = c.toNat + n := by
  have hc := c.isLt
  change limit < 2 ^ Config.CW at fits
  rw [forward, BitVec.toNat_add, BitVec.toNat_ofNat, Nat.add_mod_mod, Nat.mod_eq_of_lt (by omega)]

/-- The advance of the spec is one element on. -/
theorem advance_eq {c : Cursor} {limit : Nat} (below : c.toNat < limit) (fits : limit < Config.cursorLimit) :
    advance c below fits = forward c 1 := by
  apply BitVec.eq_of_toNat_eq
  rw [toNat_forward (by omega) fits]
  simp [advance]

/-- STATUS.INV after a lookup (R22). -/
theorem statusAfter_inv (sym : Byte) (w : BitVec 5) :
    (statusAfter sym w).getLsbD 4 = (w.getLsbD 4 || lookupFails sym) := by
  unfold statusAfter
  cases lookupFails sym <;> revert w <;> decide

/-- STATUS.ERR is not changed by a lookup (R155). -/
theorem statusAfter_err (sym : Byte) (w : BitVec 5) : (statusAfter sym w).extractLsb' 0 4 = w.extractLsb' 0 4 := by
  unfold statusAfter
  cases lookupFails sym <;> revert w <;> decide

@[simp] theorem acknowledge_err (s : State) : (acknowledge s).err = 0 := statusWord_err _ _
@[simp] theorem acknowledge_inv (s : State) : (acknowledge s).inv = false := statusWord_inv _ _

/-- A fault is pending exactly when ERR is not 0. -/
theorem faultPending_iff (s : State) : s.faultPending = true ↔ s.err ≠ 0 := by
  simp [State.faultPending]

theorem faultPending_false_iff (s : State) : s.faultPending = false ↔ s.err = 0 := by
  simp [State.faultPending]

end Sys2Proof.Machine
end

