-- ==== Sys2Proof/Laws/Ops.lean ====
section
/-!
SUPPORT. For each shared operation, one lemma that says everything it can do.
-/

namespace Sys2Proof.Machine

@[simp] theorem andThen_running (s : State) (k : State → Flow) : (Flow.running s).andThen k = k s := rfl
@[simp] theorem andThen_ended (s : State) (k : State → Flow) : (Flow.ended s).andThen k = .ended s := rfl
@[simp] theorem andThen_stuck (f : Fault) (k : State → Flow) : (Flow.stuck f).andThen k = .stuck f := rfl
@[simp] theorem outcome_running (s : State) : (Flow.running s).outcome = .next s := rfl
@[simp] theorem outcome_ended (s : State) : (Flow.ended s).outcome = .next s := rfl
@[simp] theorem outcome_stuck (f : Fault) : (Flow.stuck f).outcome = .fault f := rfl

/-- A command answers a next state exactly when its pseudocode runs to its end or to a raise. -/
theorem outcome_eq_next {r : Flow} {t : State} : r.outcome = .next t ↔ r = .running t ∨ r = .ended t := by
  cases r <;> simp [Flow.outcome]

/-- A raise writes STATUS.ERR, nothing else, and ends the command (R158). -/
theorem raise_eq (f : BlockFault) (s : State) : raise f s = .ended (s.setErr f.code) := rfl

/-- The elements that still fit do not move DSTPOS past a number it can hold. -/
theorem toNat_forward_dstpos {s : State} {n : Nat} (h : n ≤ s.dstcap.toNat - s.dstpos.toNat) :
    (forward s.dstpos n).toNat = s.dstpos.toNat + n :=
  toNat_forward h s.dstcap.isLt

/-- Everything one `DstWrite` can do (R43). -/
theorem dstWrite_cases (v : Byte) (s : State) :
    (s.dstpos.toNat < s.dstcap.toNat ∧
      dstWrite v s = .running { s with dst := s.dst.write s.dstpos.toNat v, dstpos := forward s.dstpos 1 }) ∨
    (s.dstcap.toNat ≤ s.dstpos.toNat ∧ dstWrite v s = .ended (s.setErr 4)) := by
  unfold dstWrite
  split
  · exact .inl ⟨‹_›, by rw [advance_eq]⟩
  · exact .inr ⟨by omega, rfl⟩

/-- A list that fits is written whole (R43, R50). -/
theorem dstWriteAll_of_fits {vs : List Byte} {s : State} (h : vs.length ≤ s.dstcap.toNat - s.dstpos.toNat) :
    dstWriteAll vs s =
      .running { s with dst := s.dst.writeAll s.dstpos.toNat vs, dstpos := forward s.dstpos vs.length } := by
  induction vs generalizing s with
  | nil => simp [dstWriteAll, Memory.writeAll]
  | cons v vs ih =>
    rw [List.length_cons] at h
    rcases dstWrite_cases v s with ⟨_, hw⟩ | ⟨hc, _⟩
    · have hp := toNat_forward_dstpos (s := s) (n := 1) (by omega)
      rw [dstWriteAll, hw, andThen_running, ih (by simp only [hp]; omega)]
      simp [Memory.writeAll, hp, Nat.add_comm 1]
    · omega

/-- A list that does not fit is written as far as the capacity goes, and then `Capacity` ends the command (R159). -/
theorem dstWriteAll_of_short {vs : List Byte} {s : State} (h : s.dstcap.toNat - s.dstpos.toNat < vs.length) :
    dstWriteAll vs s =
      .ended (({ s with dst := s.dst.writeAll s.dstpos.toNat (vs.take (s.dstcap.toNat - s.dstpos.toNat)),
                        dstpos := forward s.dstpos (s.dstcap.toNat - s.dstpos.toNat) } : State).setErr 4) := by
  induction vs generalizing s with
  | nil => simp at h
  | cons v vs ih =>
    rw [List.length_cons] at h
    rcases dstWrite_cases v s with ⟨hc, hw⟩ | ⟨hc, hw⟩
    · have hp := toNat_forward_dstpos (s := s) (n := 1) (by omega)
      rw [dstWriteAll, hw, andThen_running, ih (by simp only [hp]; omega)]
      have : s.dstcap.toNat - s.dstpos.toNat = (s.dstcap.toNat - (s.dstpos.toNat + 1)) + 1 := by omega
      simp only [hp, this, List.take_succ_cons, Memory.writeAll]
      simp [State.setErr, State.inv, Nat.add_comm 1]
    · rw [dstWriteAll, hw, andThen_ended, show s.dstcap.toNat - s.dstpos.toNat = 0 by omega]
      simp [Memory.writeAll]

/-- At the end of the source nothing is taken (R41). -/
theorem takeElement_atEnd {pack : Byte → Cursor → State → Flow} {s : State} (h : s.srcpos.toNat = s.src.length) :
    takeElement pack s = .running s := by
  simp [takeElement, srcAtEnd, h]

/-- Before the end one element is read, and packed with the position it was read from (R42). -/
theorem takeElement_of_read {pack : Byte → Cursor → State → Flow} {s : State} {b : Byte}
    (h : s.src.elements[s.srcpos.toNat]? = some b) :
    takeElement pack s = pack b s.srcpos { s with srcpos := forward s.srcpos 1 } := by
  obtain ⟨hlt, rfl⟩ := List.getElem?_eq_some_iff.1 h
  have hne : srcAtEnd s = false := by simpa [srcAtEnd] using Nat.ne_of_lt hlt
  simp [takeElement, hne, srcRead, hlt, advance_eq]

/-- Past the end the source has no element, and the pseudocode is stuck (log 9). -/
theorem takeElement_of_past {pack : Byte → Cursor → State → Flow} {s : State} (h : s.src.length < s.srcpos.toNat) :
    takeElement pack s = .stuck .sourceOverrun := by
  have hne : srcAtEnd s = false := by simpa [srcAtEnd] using Nat.ne_of_gt h
  simp [takeElement, hne, srcRead, Nat.lt_asymm h]

/-- A property of states that a body keeps is kept by `n` runs of it. -/
theorem forTimes_keeps {P Q : State → Prop} {body : State → Flow}
    (hr : ∀ s t, P s → body s = .running t → P t) (he : ∀ s t, P s → body s = .ended t → Q t) :
    ∀ (n : Nat) (s : State), P s →
      (∀ t, forTimes n body s = .running t → P t) ∧ (∀ t, forTimes n body s = .ended t → Q t)
  | 0, s, h => ⟨fun t e => by simp only [forTimes, Flow.running.injEq] at e; exact e ▸ h, fun t e => by simp [forTimes] at e⟩
  | n + 1, s, h => by
    rw [forTimes]
    cases hb : body s with
    | running u => exact forTimes_keeps hr he n u (hr s u h hb)
    | ended u => exact ⟨fun t e => by simp at e, fun t e => by simp at e; exact e ▸ he s u h hb⟩
    | stuck f => exact ⟨fun t e => by simp at e, fun t e => by simp at e⟩

/-- A property of states that a body keeps is kept by the whole loop; `Q` is what the body's raise leaves. -/
theorem whileSource_keeps {P Q : State → Prop} {body : State → Flow}
    (hr : ∀ s t, P s → body s = .running t → P t) (he : ∀ s t, P s → body s = .ended t → Q t) :
    ∀ (fuel : Nat) (s : State), P s →
      (∀ t, whileSource body fuel s = .running t → P t) ∧ (∀ t, whileSource body fuel s = .ended t → Q t)
  | 0, s, h => ⟨fun t e => by simp only [whileSource, Flow.running.injEq] at e; exact e ▸ h, fun t e => by simp [whileSource] at e⟩
  | fuel + 1, s, h => by
    rw [whileSource]
    split
    · exact ⟨fun t e => by simp only [Flow.running.injEq] at e; exact e ▸ h, fun t e => by simp at e⟩
    · cases hb : body s with
      | running u => exact whileSource_keeps hr he fuel u (hr s u h hb)
      | ended u => exact ⟨fun t e => by simp at e, fun t e => by simp at e; exact e ▸ he s u h hb⟩
      | stuck f => exact ⟨fun t e => by simp at e, fun t e => by simp at e⟩

/-- One turn of the loop before the end of the source. -/
theorem whileSource_of_more {body : State → Flow} {fuel : Nat} {s : State} (h : s.srcpos.toNat ≠ s.src.length) :
    whileSource body (fuel + 1) s = (body s).andThen (whileSource body fuel) := by
  have hne : srcAtEnd s = false := by simpa [srcAtEnd] using h
  simp [whileSource, hne]

/-- The loop at the end of the source does nothing. -/
theorem whileSource_atEnd {body : State → Flow} {fuel : Nat} {s : State} (h : s.srcpos.toNat = s.src.length) :
    whileSource body fuel s = .running s := by
  cases fuel <;> simp [whileSource, srcAtEnd, h]

end Sys2Proof.Machine
end

