-- ==== Sys2Proof/Laws/Groups.lean ====
section
/-!
SUPPORT. What one group of ENC and of DEC does: the accumulator after the reads, and the elements that are written.
-/

namespace Sys2Proof.Machine

/-! ### The accumulator as three bytes and as four 6-bit values (10_state.md R11) -/

/-- ACC with the bytes `b0`, `b1`, `b2` in its 8-bit fields. -/
def bytes24 (b0 b1 b2 : Byte) : Acc := b0 ++ b1 ++ b2

/-- ACC with the values `v0` to `v3` in its 6-bit fields. -/
def values24 (v0 v1 v2 v3 : Value6) : Acc := v0 ++ v1 ++ v2 ++ v3

theorem getLsbD_bytes24 (b0 b1 b2 : Byte) (k : Nat) : (bytes24 b0 b1 b2).getLsbD k =
    if k < 8 then b2.getLsbD k else if k < 16 then b1.getLsbD (k - 8) else b0.getLsbD (k - 16) := by
  unfold bytes24
  rw [show (b0 ++ b1 ++ b2 : Acc).getLsbD k = (b0 ++ b1 ++ b2 : BitVec (8 + 8 + 8)).getLsbD k from rfl,
    BitVec.getLsbD_append, BitVec.getLsbD_append, Nat.sub_sub]
  simp only [show (k - 8 < 8) ↔ k < 16 by omega]

theorem getLsbD_values24 (v0 v1 v2 v3 : Value6) (k : Nat) : (values24 v0 v1 v2 v3).getLsbD k =
    if k < 6 then v3.getLsbD k else if k < 12 then v2.getLsbD (k - 6)
    else if k < 18 then v1.getLsbD (k - 12) else v0.getLsbD (k - 18) := by
  unfold values24
  rw [show (v0 ++ v1 ++ v2 ++ v3 : Acc).getLsbD k = (v0 ++ v1 ++ v2 ++ v3 : BitVec (6 + 6 + 6 + 6)).getLsbD k from rfl,
    BitVec.getLsbD_append, BitVec.getLsbD_append, BitVec.getLsbD_append, Nat.sub_sub, Nat.sub_sub]
  simp only [show (k - 6 < 6) ↔ k < 12 by omega, show (k - 12 < 6) ↔ k < 18 by omega]

/-- Packing into a clear accumulator, one byte after the other. -/
theorem insert8_first (b0 : Byte) : insert8 0#24 0 b0 = bytes24 b0 0#8 0#8 := by
  apply BitVec.eq_of_getLsbD_eq
  intro i hi
  rw [getLsbD_bytes24]
  interval_cases i <;> simp [insert8]

theorem insert8_second (b0 b1 : Byte) : insert8 (bytes24 b0 0#8 0#8) 1 b1 = bytes24 b0 b1 0#8 := by
  rw [← insert8_first]
  apply BitVec.eq_of_getLsbD_eq
  intro i hi
  rw [getLsbD_bytes24]
  interval_cases i <;> simp [insert8]

theorem insert8_third (b0 b1 b2 : Byte) : insert8 (bytes24 b0 b1 0#8) 2 b2 = bytes24 b0 b1 b2 := by
  rw [← insert8_second, ← insert8_first]
  apply BitVec.eq_of_getLsbD_eq
  intro i hi
  rw [getLsbD_bytes24]
  interval_cases i <;> simp [insert8]

/-- Packing into a clear accumulator, one value after the other. -/
theorem insert6_first (v0 : Value6) : insert6 0#24 0 v0 = values24 v0 0#6 0#6 0#6 := by
  apply BitVec.eq_of_getLsbD_eq
  intro i hi
  rw [getLsbD_values24]
  interval_cases i <;> simp [insert6]

theorem insert6_second (v0 v1 : Value6) : insert6 (values24 v0 0#6 0#6 0#6) 1 v1 = values24 v0 v1 0#6 0#6 := by
  rw [← insert6_first]
  apply BitVec.eq_of_getLsbD_eq
  intro i hi
  rw [getLsbD_values24]
  interval_cases i <;> simp [insert6]

theorem insert6_third (v0 v1 v2 : Value6) : insert6 (values24 v0 v1 0#6 0#6) 2 v2 = values24 v0 v1 v2 0#6 := by
  rw [← insert6_second, ← insert6_first]
  apply BitVec.eq_of_getLsbD_eq
  intro i hi
  rw [getLsbD_values24]
  interval_cases i <;> simp [insert6]

theorem insert6_fourth (v0 v1 v2 v3 : Value6) : insert6 (values24 v0 v1 v2 0#6) 3 v3 = values24 v0 v1 v2 v3 := by
  rw [← insert6_third, ← insert6_second, ← insert6_first]
  apply BitVec.eq_of_getLsbD_eq
  intro i hi
  rw [getLsbD_values24]
  interval_cases i <;> simp [insert6]

/-! ### Reading and packing one group -/

/-- STATUS after the lookups of a list of symbols. -/
def statusAll (cs : List Byte) (w : BitVec 5) : BitVec 5 := cs.foldl (fun w c => statusAfter c w) w

/-- INVPOS after the lookups of a list of symbols, the first of them at position `p`. -/
def invposAll : List Byte → Cursor → BitVec 5 → Cursor → Cursor
  | [], _, _, q => q
  | c :: cs, p, w, q => invposAll cs (forward p 1) (statusAfter c w) (invposAfter c p (w.getLsbD 4) q)

/-- PADC after a list of symbols. -/
def padAll (cs : List Byte) (padc : BitVec 2) : BitVec 2 := cs.foldl (fun q c => padAfter c q) padc

/-- The value a symbol packs as (R100). -/
def packedValue (c : Byte) : Value6 := clamp (symToVal (normalise c))

/-- What is read and what remains make up the source. -/
theorem remaining_length {s : State} (h : s.srcpos.toNat ≤ s.src.length) :
    s.src.length = s.srcpos.toNat + s.remaining.length := by
  simp only [State.remaining, List.length_drop, Source.length] at h ⊢
  omega

/-- Reading what remains does not move SRCPOS past a number it can hold. -/
theorem toNat_forward_srcpos {s : State} {n : Nat} (h : n ≤ s.remaining.length) :
    (forward s.srcpos n).toNat = s.srcpos.toNat + n :=
  toNat_forward (by simpa [State.remaining] using h) s.src.fits

/-- The element at SRCPOS after `k` more reads. -/
theorem remaining_getElem? (s : State) (k : Nat) (h : k ≤ s.remaining.length) :
    s.src.elements[(forward s.srcpos k).toNat]? = s.remaining[k]? := by
  rw [toNat_forward_srcpos h]
  simp [State.remaining]

/-- Reading all that remains ends at the end of the source (R41). -/
theorem forward_remaining {s : State} (h : s.srcpos.toNat ≤ s.src.length) :
    (forward s.srcpos s.remaining.length).toNat = s.src.length := by
  rw [toNat_forward_srcpos (Nat.le_refl _), ← remaining_length h]

/-- PK8 below count 3 (R81). -/
theorem packByte_of_lt {b : Byte} {s : State} (h : s.cnt.toNat < 3) :
    packByte b s = .running { s with acc := insert8 s.acc s.cnt.toNat b, cnt := s.cnt + 1 } := by
  simp [packByte, show ¬ 3 ≤ s.cnt.toNat by omega]

/-- PK6 below count 4 (R100). -/
theorem packSymbol_of_lt {c : Byte} {p : Cursor} {s : State} (h : s.cnt.toNat < 4) :
    packSymbol c p s = .running { s with
      padc := padAfter c s.padc, status := statusAfter c s.status, invpos := invposAfter c p s.inv s.invpos
      acc := insert6 s.acc s.cnt.toNat (packedValue c), cnt := s.cnt + 1 } := by
  simp [packSymbol, packedValue, show ¬ 4 ≤ s.cnt.toNat by omega]

/-- The reads of one group of ENC: up to three bytes go to the 8-bit fields in order, missing ones stay 0 (R83, R46). -/
theorem fillBytes {s : State} (h : s.srcpos.toNat ≤ s.src.length) :
    forTimes 3 (takeElement fun b _ => packByte b) (clearGroup s) =
      .running { s with
        acc := bytes24 (s.remaining.getD 0 0) (s.remaining.getD 1 0) (s.remaining.getD 2 0)
        cnt := BitVec.ofNat 3 (min s.remaining.length 3), padc := 0
        srcpos := forward s.srcpos (min s.remaining.length 3) } := by
  have hend := forward_remaining h
  have hget := remaining_getElem? s
  generalize s.remaining = r at *
  match r with
  | [] =>
    have hnone : takeElement (fun b _ => packByte b) (clearGroup s) = .running (clearGroup s) :=
      takeElement_atEnd (by simpa [clearGroup] using hend)
    simp only [forTimes, hnone, andThen_running]
    simp [clearGroup, bytes24]
  | [b0] =>
    rw [forTimes, takeElement_of_read (b := b0) (by simpa [clearGroup] using hget 0 (by simp)), packByte_of_lt (by simp [clearGroup])]
    simp only [andThen_running, forTimes]
    rw [takeElement_atEnd (by simpa [clearGroup] using hend)]
    simp only [andThen_running]
    rw [takeElement_atEnd (by simpa [clearGroup] using hend)]
    simp [clearGroup, insert8_first]
  | [b0, b1] =>
    rw [forTimes, takeElement_of_read (b := b0) (by simpa [clearGroup] using hget 0 (by simp)), packByte_of_lt (by simp [clearGroup])]
    simp only [andThen_running, forTimes]
    rw [takeElement_of_read (b := b1) (by simpa [clearGroup] using hget 1 (by simp)), packByte_of_lt (by simp [clearGroup])]
    simp only [andThen_running]
    rw [takeElement_atEnd (by simpa [clearGroup] using hend)]
    simp [clearGroup, insert8_first, insert8_second]
  | b0 :: b1 :: b2 :: rest =>
    rw [forTimes, takeElement_of_read (b := b0) (by simpa [clearGroup] using hget 0 (by simp)), packByte_of_lt (by simp [clearGroup])]
    simp only [andThen_running, forTimes]
    rw [takeElement_of_read (b := b1) (by simpa [clearGroup] using hget 1 (by simp)), packByte_of_lt (by simp [clearGroup])]
    simp only [andThen_running]
    rw [takeElement_of_read (b := b2) (by simpa [clearGroup] using hget 2 (by simp)), packByte_of_lt (by simp [clearGroup])]
    simp [clearGroup, insert8_first, insert8_second, insert8_third]

/-- The reads of one group of DEC: up to four symbols go to the 6-bit fields in order, missing ones stay 0 and do not change
PADC (R102, R106). -/
theorem fillSymbols {s : State} (h : s.srcpos.toNat ≤ s.src.length) :
    forTimes 4 (takeElement packSymbol) (clearGroup s) =
      .running { s with
        acc := values24 ((s.remaining[0]?.map packedValue).getD 0) ((s.remaining[1]?.map packedValue).getD 0)
          ((s.remaining[2]?.map packedValue).getD 0) ((s.remaining[3]?.map packedValue).getD 0)
        cnt := BitVec.ofNat 3 (min s.remaining.length 4)
        padc := padAll (s.remaining.take 4) 0
        status := statusAll (s.remaining.take 4) s.status
        invpos := invposAll (s.remaining.take 4) s.srcpos s.status s.invpos
        srcpos := forward s.srcpos (min s.remaining.length 4) } := by
  have hend := forward_remaining h
  have hget := remaining_getElem? s
  generalize s.remaining = r at *
  match r with
  | [] =>
    have hnone : takeElement packSymbol (clearGroup s) = .running (clearGroup s) :=
      takeElement_atEnd (by simpa [clearGroup] using hend)
    simp only [forTimes, hnone, andThen_running]
    simp [clearGroup, values24, statusAll, invposAll, padAll]
  | [c0] =>
    rw [forTimes, takeElement_of_read (b := c0) (by simpa [clearGroup] using hget 0 (by simp)), packSymbol_of_lt (by simp [clearGroup])]
    simp only [andThen_running, forTimes]
    rw [takeElement_atEnd (by simpa [clearGroup] using hend)]
    simp only [andThen_running]
    rw [takeElement_atEnd (by simpa [clearGroup] using hend)]
    simp only [andThen_running]
    rw [takeElement_atEnd (by simpa [clearGroup] using hend)]
    simp [clearGroup, insert6_first, statusAll, invposAll, padAll, State.inv]
  | [c0, c1] =>
    rw [forTimes, takeElement_of_read (b := c0) (by simpa [clearGroup] using hget 0 (by simp)), packSymbol_of_lt (by simp [clearGroup])]
    simp only [andThen_running, forTimes]
    rw [takeElement_of_read (b := c1) (by simpa [clearGroup] using hget 1 (by simp)), packSymbol_of_lt (by simp [clearGroup])]
    simp only [andThen_running]
    rw [takeElement_atEnd (by simpa [clearGroup] using hend)]
    simp only [andThen_running]
    rw [takeElement_atEnd (by simpa [clearGroup] using hend)]
    simp [clearGroup, insert6_first, insert6_second, statusAll, invposAll, padAll, State.inv]
  | [c0, c1, c2] =>
    rw [forTimes, takeElement_of_read (b := c0) (by simpa [clearGroup] using hget 0 (by simp)), packSymbol_of_lt (by simp [clearGroup])]
    simp only [andThen_running, forTimes]
    rw [takeElement_of_read (b := c1) (by simpa [clearGroup] using hget 1 (by simp)), packSymbol_of_lt (by simp [clearGroup])]
    simp only [andThen_running]
    rw [takeElement_of_read (b := c2) (by simpa [clearGroup] using hget 2 (by simp)), packSymbol_of_lt (by simp [clearGroup])]
    simp only [andThen_running]
    rw [takeElement_atEnd (by simpa [clearGroup] using hend)]
    simp [clearGroup, insert6_first, insert6_second, insert6_third, statusAll, invposAll, padAll, State.inv]
  | c0 :: c1 :: c2 :: c3 :: rest =>
    rw [forTimes, takeElement_of_read (b := c0) (by simpa [clearGroup] using hget 0 (by simp)), packSymbol_of_lt (by simp [clearGroup])]
    simp only [andThen_running, forTimes]
    rw [takeElement_of_read (b := c1) (by simpa [clearGroup] using hget 1 (by simp)), packSymbol_of_lt (by simp [clearGroup])]
    simp only [andThen_running]
    rw [takeElement_of_read (b := c2) (by simpa [clearGroup] using hget 2 (by simp)), packSymbol_of_lt (by simp [clearGroup])]
    simp only [andThen_running]
    rw [takeElement_of_read (b := c3) (by simpa [clearGroup] using hget 3 (by simp)), packSymbol_of_lt (by simp [clearGroup])]
    simp [clearGroup, insert6_first, insert6_second, insert6_third, insert6_fourth, statusAll, invposAll, padAll, State.inv]

/-! ### Emission -/

theorem groupSymbols_length (a : Acc) (n : Nat) : (groupSymbols a n).length = 4 := by simp [groupSymbols]

theorem groupBytes_length (a : Acc) (n : Nat) : (groupBytes a n).length = n := by simp [groupBytes]

/-- Everything EMS can do: `GroupState` on entry, four symbols, or as many as fit and `Capacity` (R82, R159). -/
theorem emitSymbols_cases (s : State) :
    ((s.cnt = 0 ∨ s.cnt = 4) ∧ emitSymbols s = .ended (s.setErr 3)) ∨
    (¬ (s.cnt = 0 ∨ s.cnt = 4) ∧ 4 ≤ s.dstcap.toNat - s.dstpos.toNat ∧
      emitSymbols s = .running { s with
        dst := s.dst.writeAll s.dstpos.toNat (groupSymbols s.acc s.cnt.toNat), dstpos := forward s.dstpos 4 }) ∨
    (¬ (s.cnt = 0 ∨ s.cnt = 4) ∧ s.dstcap.toNat - s.dstpos.toNat < 4 ∧
      emitSymbols s = .ended (({ s with
        dst := s.dst.writeAll s.dstpos.toNat ((groupSymbols s.acc s.cnt.toNat).take (s.dstcap.toNat - s.dstpos.toNat))
        dstpos := forward s.dstpos (s.dstcap.toNat - s.dstpos.toNat) } : State).setErr 4)) := by
  unfold emitSymbols
  by_cases hc : s.cnt = 0 ∨ s.cnt = 4
  · exact .inl ⟨hc, by rw [if_pos hc]; rfl⟩
  · refine .inr ?_
    rw [if_neg hc]
    rcases Nat.lt_or_ge (s.dstcap.toNat - s.dstpos.toNat) 4 with h | h
    · exact .inr ⟨hc, h, dstWriteAll_of_short (by rwa [groupSymbols_length])⟩
    · refine .inl ⟨hc, h, ?_⟩
      rw [dstWriteAll_of_fits (by rwa [groupSymbols_length]), groupSymbols_length]

/-- Everything EMB can do: `GroupState` on entry, its bytes, or as many as fit and `Capacity` (R101, R159). -/
theorem emitBytes_cases (fin : Bool) (s : State) :
    (s.cnt = 0 ∧ emitBytes fin s = .ended (s.setErr 3)) ∨
    (s.cnt ≠ 0 ∧ emitCount fin s.padc ≤ s.dstcap.toNat - s.dstpos.toNat ∧
      emitBytes fin s = .running { s with
        dst := s.dst.writeAll s.dstpos.toNat (groupBytes s.acc (emitCount fin s.padc))
        dstpos := forward s.dstpos (emitCount fin s.padc) }) ∨
    (s.cnt ≠ 0 ∧ s.dstcap.toNat - s.dstpos.toNat < emitCount fin s.padc ∧
      emitBytes fin s = .ended (({ s with
        dst := s.dst.writeAll s.dstpos.toNat ((groupBytes s.acc (emitCount fin s.padc)).take (s.dstcap.toNat - s.dstpos.toNat))
        dstpos := forward s.dstpos (s.dstcap.toNat - s.dstpos.toNat) } : State).setErr 4)) := by
  unfold emitBytes
  by_cases hc : s.cnt = 0
  · exact .inl ⟨hc, by rw [if_pos hc]; rfl⟩
  · refine .inr ?_
    rw [if_neg hc]
    rcases Nat.lt_or_ge (s.dstcap.toNat - s.dstpos.toNat) (emitCount fin s.padc) with h | h
    · exact .inr ⟨hc, h, dstWriteAll_of_short (by rwa [groupBytes_length])⟩
    · refine .inl ⟨hc, h, ?_⟩
      rw [dstWriteAll_of_fits (by rwa [groupBytes_length]), groupBytes_length]

end Sys2Proof.Machine
end

