-- ==== Sys2Proof/Laws/PerInstr.lean ====
section
/-!
SUPPORT. A statement about every command, one lemma for each constructor: the word of a command matches one row of the opcode
map, its own (30_encoding.md R63, R64).
-/

namespace Sys2Proof.Laws.OneRow

/-- The mnemonic of a command (R63). -/
def mnemonic : Instr → String
  | .enc => "ENC"
  | .dec => "DEC"
  | .s2v _ => "S2V"
  | .v2s _ => "V2S"
  | .xbit _ _ => "XBIT"
  | .clra => "CLRA"
  | .pk8 _ => "PK8"
  | .pk6 _ => "PK6"
  | .ems => "EMS"
  | .emb _ => "EMB"
  | .clrf => "CLRF"

/-- The rows that the word of `i` matches are one, and it is the row of `i`. -/
def Statement (i : Instr) : Prop :=
  (opcodeRows.filter (rowMatches (encode i))).map OpcodeRow.mnemonic = [mnemonic i]

theorem enc : Statement .enc := by unfold Statement; decide
theorem dec : Statement .dec := by unfold Statement; decide
theorem s2v (sym : Byte) : Statement (.s2v sym) := by unfold Statement; revert sym; decide
theorem v2s (val : Byte) : Statement (.v2s val) := by unfold Statement; revert val; decide
theorem xbit (width : FieldWidth) (idx : BitVec 2) : Statement (.xbit width idx) := by
  unfold Statement; cases width <;> revert idx <;> decide
theorem clra : Statement .clra := by unfold Statement; decide
theorem pk8 (byte : Byte) : Statement (.pk8 byte) := by unfold Statement; revert byte; decide
theorem pk6 (sym : Byte) : Statement (.pk6 sym) := by unfold Statement; revert sym; decide
theorem ems : Statement .ems := by unfold Statement; decide
theorem emb (fin : Bool) : Statement (.emb fin) := by unfold Statement; revert fin; decide
theorem clrf : Statement .clrf := by unfold Statement; decide

end Sys2Proof.Laws.OneRow
end

