-- ==== Sys2Proof/Laws/Step.lean ====
section
/-!
SUPPORT. What one step can do, said once for `step`, `perform` and `issueWord`.
-/

namespace Sys2Proof.Machine

/-- A step is idle, or performs the first waiting action (R144, R168). -/
theorem step_cases (s : State) :
    (s.inbox = [] ∧ step s = .next s) ∨
    ∃ a rest, s.inbox = a :: rest ∧ step s = perform a { s with inbox := rest } := by
  unfold step
  split
  · exact .inl ⟨‹_›, rfl⟩
  · exact .inr ⟨_, _, ‹_›, rfl⟩

/-- An issued word is dropped, or runs as the command it decodes to, or raises `IllegalCommand` (R64, R144). -/
theorem issueWord_cases (w : Word) (s : State) :
    (dropped w s = true ∧ issueWord w s = .next s) ∨
    (dropped w s = false ∧ ∃ i, decode w = .ok i ∧ issueWord w s = exec i s) ∨
    (dropped w s = false ∧ (∃ e, decode w = .error e) ∧ issueWord w s = .next (s.setErr 1)) := by
  unfold issueWord
  cases hd : dropped w s with
  | true => exact .inl ⟨rfl, rfl⟩
  | false =>
    refine .inr ?_
    cases hw : decode w with
    | ok i => exact .inl ⟨rfl, i, rfl, rfl⟩
    | error e => exact .inr ⟨rfl, ⟨e, rfl⟩, rfl⟩

/-- No word is dropped without a pending fault (R160). -/
theorem dropped_of_err_zero {w : Word} {s : State} (h : s.err = 0) : dropped w s = false := by
  simp [dropped, (faultPending_false_iff s).2 h]

/-- CLRF is never dropped (R160). -/
theorem dropped_clrf (s : State) : dropped clrfWord s = false := by simp [dropped]

/-- Every other word is dropped while a fault is pending (R160). -/
theorem dropped_of_pending {w : Word} {s : State} (h : s.err ≠ 0) (hw : w ≠ clrfWord) : dropped w s = true := by
  simp [dropped, (faultPending_iff s).2 h, hw]

end Sys2Proof.Machine
end

