-- ==== Sys2Proof/Laws/Streams.lean ====
section
/-!
SUPPORT. What the whole of ENC and of DEC does, said once: each loop ends in one state in closed form, in terms of the text and
the bytes that Safety.lean computes without the accumulator.
-/

namespace Sys2Proof.Machine

/-! ### Lists taken a group at a time -/

/-- The last group is the last group of what follows the first group. -/
theorem lastGroup_drop (k : Nat) (hk : 0 < k) (r : List Byte) (h : k < r.length) : lastGroup k (r.drop k) = lastGroup k r := by
  have : (r.length - 1) / k = (r.length - k - 1) / k + 1 := by
    rw [← Nat.add_div_right _ hk]; congr 1; omega
  rw [lastGroup, lastGroup, List.length_drop, List.drop_drop, this]; ring_nf

/-- A list no longer than a group is its own last group. -/
theorem lastGroup_short (k : Nat) (r : List Byte) (h : r.length ≤ k) (h0 : r ≠ []) : lastGroup k r = r := by
  have : 0 < r.length := List.length_pos_iff.2 h0
  rw [lastGroup, Nat.div_eq_of_lt (by omega)]; simp

/-- A last group is no longer than a group. -/
theorem lastGroup_length_le (k : Nat) (hk : 0 < k) (r : List Byte) : (lastGroup k r).length ≤ k := by
  rw [lastGroup, List.length_drop]
  have := Nat.div_add_mod (r.length - 1) k
  have := Nat.mod_lt (r.length - 1) hk
  omega

/-- CNT holds every count up to 4 (R12). -/
theorem toNat_ofNat_cnt {n : Nat} (h : n ≤ 4) : (BitVec.ofNat 3 n).toNat = n := by
  simp; omega

/-- A count of 1 to 3 is no count at which EMS raises `GroupState` (R82). -/
theorem ofNat_cnt_not_zero_four {n : Nat} (h0 : 0 < n) (h : n ≤ 3) : ¬ (BitVec.ofNat 3 n = 0 ∨ BitVec.ofNat 3 n = 4) := by
  interval_cases n <;> decide

/-- What remains after the reads of a group of at most `k` elements. -/
theorem src_drop_group (s : State) (k : Nat) :
    s.src.elements.drop (forward s.srcpos (min s.remaining.length k)).toNat = s.remaining.drop k := by
  rw [toNat_forward_srcpos (Nat.min_le_left _ _), ← List.drop_drop]
  show s.remaining.drop (min s.remaining.length k) = _
  rcases Nat.le_total s.remaining.length k with hle | hle
  · rw [Nat.min_eq_left hle, List.drop_length, List.drop_eq_nil_of_le hle]
  · rw [Nat.min_eq_right hle]

/-! ### The text -/

/-- The four 6-bit fields of three bytes (R122). -/
theorem extract6_bytes24_zero (b0 b1 b2 : Byte) : extract (bytes24 b0 b1 b2) 0 6 = b0.extractLsb' 2 6 := by
  apply BitVec.eq_of_getLsbD_eq
  intro i hi
  interval_cases i <;> simp [extract, getLsbD_bytes24, -BitVec.getLsbD_eq_getElem]

theorem extract6_bytes24_one (b0 b1 b2 : Byte) : extract (bytes24 b0 b1 b2) 1 6 = b0.extractLsb' 0 2 ++ b1.extractLsb' 4 4 := by
  apply BitVec.eq_of_getLsbD_eq
  intro i hi
  rw [show (b0.extractLsb' 0 2 ++ b1.extractLsb' 4 4 : Value6).getLsbD i = (b0.extractLsb' 0 2 ++ b1.extractLsb' 4 4 : BitVec (2+4)).getLsbD i from rfl, BitVec.getLsbD_append]
  interval_cases i <;> simp [extract, getLsbD_bytes24, -BitVec.getLsbD_eq_getElem]

theorem extract6_bytes24_two (b0 b1 b2 : Byte) : extract (bytes24 b0 b1 b2) 2 6 = b1.extractLsb' 0 4 ++ b2.extractLsb' 6 2 := by
  apply BitVec.eq_of_getLsbD_eq
  intro i hi
  rw [show (b1.extractLsb' 0 4 ++ b2.extractLsb' 6 2 : Value6).getLsbD i = (b1.extractLsb' 0 4 ++ b2.extractLsb' 6 2 : BitVec (4+2)).getLsbD i from rfl, BitVec.getLsbD_append]
  interval_cases i <;> simp [extract, getLsbD_bytes24, -BitVec.getLsbD_eq_getElem]

theorem extract6_bytes24_three (b0 b1 b2 : Byte) : extract (bytes24 b0 b1 b2) 3 6 = b2.extractLsb' 0 6 := by
  apply BitVec.eq_of_getLsbD_eq
  intro i hi
  interval_cases i <;> simp [extract, getLsbD_bytes24, -BitVec.getLsbD_eq_getElem]

/-- The symbols of a full group and of the two short ones (R82, R85). -/
theorem groupSymbols_three (b0 b1 b2 : Byte) : groupSymbols (bytes24 b0 b1 b2) 3 = [valToSym (b0.extractLsb' 2 6), valToSym (b0.extractLsb' 0 2 ++ b1.extractLsb' 4 4),
     valToSym (b1.extractLsb' 0 4 ++ b2.extractLsb' 6 2), valToSym (b2.extractLsb' 0 6)] := by
  simp only [groupSymbols, meaningful, List.range, List.range.loop, List.map, extract6_bytes24_zero, extract6_bytes24_one, extract6_bytes24_two, extract6_bytes24_three]; rfl

theorem groupSymbols_two (b0 b1 : Byte) : groupSymbols (bytes24 b0 b1 0) 2 = encodedText [b0,b1] := by
  simp only [groupSymbols, meaningful, List.range, List.range.loop, List.map, extract6_bytes24_zero, extract6_bytes24_one, extract6_bytes24_two, extract6_bytes24_three, encodedText]; rfl

theorem groupSymbols_one (b0 : Byte) : groupSymbols (bytes24 b0 0 0) 1 = encodedText [b0] := by
  simp only [groupSymbols, meaningful, List.range, List.range.loop, List.map, extract6_bytes24_zero, extract6_bytes24_one, extract6_bytes24_two, extract6_bytes24_three, encodedText]; rfl

/-- The text of a list is that of its first group and that of the rest (R83). -/
theorem encodedText_split (r : List Byte) (h : r ≠ []) :
    encodedText r = groupSymbols (bytes24 (r.getD 0 0) (r.getD 1 0) (r.getD 2 0)) (min r.length 3) ++ encodedText (r.drop 3) := by
  match r with
  | [b0] => simpa [encodedText] using (groupSymbols_one b0).symm
  | [b0, b1] => simpa [encodedText] using (groupSymbols_two b0 b1).symm
  | b0 :: b1 :: b2 :: rest =>
    have : min (b0 :: b1 :: b2 :: rest).length 3 = 3 := by simp
    rw [this]
    simp [encodedText, groupSymbols_three]

/-- The length of the text (R86). -/
theorem encodedText_length (r : List Byte) : (encodedText r).length = 4 * ceilDiv r.length 3 := by
  induction r using encodedText.induct with
  | case1 => rfl
  | case2 => simp [encodedText, ceilDiv]
  | case3 => simp [encodedText, ceilDiv]
  | case4 b0 b1 b2 rest ih => simp only [encodedText, List.length_append, ih, ceilDiv, List.length_cons, List.length_nil]; omega

/-- The bytes of the first group. -/
theorem getD_take_three (r : List Byte) : (r.getD 0 0, r.getD 1 0, r.getD 2 0) = ((r.take 3).getD 0 0, (r.take 3).getD 1 0, (r.take 3).getD 2 0) := by
  match r with
  | [] => rfl
  | [_] => rfl
  | [_, _] => rfl
  | _ :: _ :: _ :: _ => rfl

/-! ### ENC -/

/-- ACC, CNT and PADC after ENC of a list: those of its last group, or as they were when there is none. -/
def encodeRegisters (r : List Byte) (a : Acc) (c : BitVec 3) (p : BitVec 2) : Acc × BitVec 3 × BitVec 2 :=
  if r = [] then (a, c, p) else
  let g := lastGroup 3 r
  (bytes24 (g.getD 0 0) (g.getD 1 0) (g.getD 2 0), BitVec.ofNat 3 g.length, 0)

/-- One group of ENC before the end of the source. -/
theorem encodeGroup_eq {s : State} (h : s.srcpos.toNat ≤ s.src.length) (hr : s.remaining ≠ []) :
   let g := groupSymbols (bytes24 (s.remaining.getD 0 0) (s.remaining.getD 1 0) (s.remaining.getD 2 0)) (min s.remaining.length 3)
   let u : State := { s with
        acc := bytes24 (s.remaining.getD 0 0) (s.remaining.getD 1 0) (s.remaining.getD 2 0)
        cnt := BitVec.ofNat 3 (min s.remaining.length 3), padc := 0
        srcpos := forward s.srcpos (min s.remaining.length 3) }
   (4 ≤ s.dstcap.toNat - s.dstpos.toNat →
     encodeGroup s = .running { u with dst := s.dst.writeAll s.dstpos.toNat g, dstpos := forward s.dstpos 4 }) ∧
   (s.dstcap.toNat - s.dstpos.toNat < 4 →
     encodeGroup s = .ended (({ u with
       dst := s.dst.writeAll s.dstpos.toNat (g.take (s.dstcap.toNat - s.dstpos.toNat))
       dstpos := forward s.dstpos (s.dstcap.toNat - s.dstpos.toNat) } : State).setErr 4)) := by
  intro g u
  have hpos : 0 < s.remaining.length := List.length_pos_iff.2 hr
  have hok := ofNat_cnt_not_zero_four (n := min s.remaining.length 3) (by omega) (by omega)
  have hg : groupSymbols u.acc u.cnt.toNat = g := by
    simp only [u, g]; rw [toNat_ofNat_cnt (by omega)]
  have e : encodeGroup s = emitSymbols u := by rw [encodeGroup, fillBytes h]; rfl
  rw [e]
  rcases emitSymbols_cases u with ⟨hc, _⟩ | ⟨_, hroom, he⟩ | ⟨_, hroom, he⟩
  · exact absurd hc hok
  · refine ⟨fun _ => ?_, fun hh => absurd hroom (by simp only [u]; omega)⟩
    rw [he, hg]
  · refine ⟨fun hh => absurd hroom (by simp only [u]; omega), fun _ => ?_⟩
    rw [he, hg]

/-- The whole loop of ENC: with room for the text it writes all of it, and without it stops in the group that does not fit
(R83, R154, R159). -/
theorem encodeLoop_eq : ∀ (fuel : Nat) (s : State), s.srcpos.toNat ≤ s.src.length → s.remaining.length < fuel →
   (4 * ceilDiv s.remaining.length 3 ≤ s.dstcap.toNat - s.dstpos.toNat →
     whileSource encodeGroup fuel s = .running { s with
       acc := (encodeRegisters s.remaining s.acc s.cnt s.padc).1, cnt := (encodeRegisters s.remaining s.acc s.cnt s.padc).2.1
       padc := (encodeRegisters s.remaining s.acc s.cnt s.padc).2.2
       srcpos := forward s.srcpos s.remaining.length, dst := s.dst.writeAll s.dstpos.toNat (encodedText s.remaining)
       dstpos := forward s.dstpos (encodedText s.remaining).length }) ∧
   (s.dstcap.toNat - s.dstpos.toNat < 4 * ceilDiv s.remaining.length 3 →
     let room := s.dstcap.toNat - s.dstpos.toNat
     let g := (s.remaining.drop (3 * (room / 4))).take 3
     whileSource encodeGroup fuel s = .ended (({ s with
       acc := bytes24 (g.getD 0 0) (g.getD 1 0) (g.getD 2 0), cnt := BitVec.ofNat 3 g.length
       padc := 0
       srcpos := forward s.srcpos (3 * (room / 4) + g.length), dst := s.dst.writeAll s.dstpos.toNat ((encodedText s.remaining).take room)
       dstpos := forward s.dstpos room } : State).setErr 4)) := by
  intro fuel
  induction fuel with
  | zero => intro s _ h; omega
  | succ fuel ih =>
    intro s h hf
    have hlen := remaining_length h
    by_cases hr : s.remaining = []
    · have : s.srcpos.toNat = s.src.length := by simpa [hr] using forward_remaining h
      rw [whileSource_atEnd this]
      refine ⟨fun _ => ?_, fun hh => ?_⟩
      · simp [hr, encodeRegisters, encodedText, Memory.writeAll]
      · rw [hr] at hh; simp [ceilDiv] at hh
    · have hpos : 0 < s.remaining.length := List.length_pos_iff.2 hr
      rw [whileSource_of_more (by omega)]
      obtain ⟨hfit, hshort⟩ := encodeGroup_eq h hr
      have hlt := encodedText_length s.remaining
      have hsplit := encodedText_split s.remaining hr
      rcases Nat.lt_or_ge (s.dstcap.toNat - s.dstpos.toNat) 4 with hroom | hroom
      · rw [hshort hroom, andThen_ended]
        have h1 : 1 ≤ ceilDiv s.remaining.length 3 := by simp only [ceilDiv]; omega
        refine ⟨fun hh => by omega, fun _ => ?_⟩
        have h0 : (s.dstcap.toNat - s.dstpos.toNat) / 4 = 0 := by omega
        simp only [h0, Nat.mul_zero, List.drop_zero, Nat.zero_add]
        have ht := getD_take_three s.remaining
        simp only [Prod.mk.injEq] at ht
        rw [hsplit, List.take_append_of_le_length (by rw [groupSymbols_length]; omega), ht.1, ht.2.1, ht.2.2, List.length_take, Nat.min_comm 3]
      · rw [hfit hroom, andThen_running]
        generalize hv : ({ s with
          acc := bytes24 (s.remaining.getD 0 0) (s.remaining.getD 1 0) (s.remaining.getD 2 0)
          cnt := BitVec.ofNat 3 (min s.remaining.length 3), padc := 0
          srcpos := forward s.srcpos (min s.remaining.length 3)
          dst := s.dst.writeAll s.dstpos.toNat (groupSymbols (bytes24 (s.remaining.getD 0 0) (s.remaining.getD 1 0) (s.remaining.getD 2 0)) (min s.remaining.length 3)), dstpos := forward s.dstpos 4 } : State) = v
        have hvrem : v.remaining = s.remaining.drop 3 := by
          subst hv
          exact src_drop_group s 3
        have hvlen : v.src = s.src := by subst hv; rfl
        have hvcap : v.dstcap.toNat = s.dstcap.toNat := by subst hv; rfl
        have hvpos : v.dstpos.toNat = s.dstpos.toNat + 4 := by subst hv; exact toNat_forward_dstpos hroom
        have hvsrc : v.srcpos.toNat = s.srcpos.toNat + min s.remaining.length 3 := by
          subst hv; exact toNat_forward_srcpos (Nat.min_le_left _ _)
        obtain ⟨ihf, ihs⟩ := ih v (by rw [hvlen, hvsrc]; omega) (by rw [hvrem, List.length_drop]; omega)
        have hceil : ceilDiv s.remaining.length 3 = ceilDiv v.remaining.length 3 + 1 := by
          rw [hvrem, List.length_drop]; simp only [ceilDiv]; omega
        refine ⟨fun hh => ?_, fun hh => ?_⟩
        · have hmin : min s.remaining.length 3 + (s.remaining.length - 3) = s.remaining.length := by omega
          rw [ihf (by omega), hvrem, hvpos]
          subst hv
          simp only [hsplit, Memory.writeAll_append, groupSymbols_length, List.length_append]
          congr 1
          rcases Nat.lt_or_ge 3 s.remaining.length with hl | hl
          · have hne : s.remaining.drop 3 ≠ [] := by
              intro hc; have := congrArg List.length hc; simp at this; omega
            simp [encodeRegisters, hne, hr, lastGroup_drop 3 (by omega) _ hl, hmin]
          · have hn : s.remaining.drop 3 = [] := List.drop_eq_nil_of_le hl
            simp [encodeRegisters, hn, hr, lastGroup_short 3 _ hl hr, Nat.min_eq_left hl, encodedText]
        · have := ihs (by omega)
          simp only at this ⊢
          rw [this, hvrem, hvcap, hvpos]
          have hq : (s.dstcap.toNat - s.dstpos.toNat) / 4 = (s.dstcap.toNat - (s.dstpos.toNat + 4)) / 4 + 1 := by omega
          have hd : List.drop (3 * ((s.dstcap.toNat - (s.dstpos.toNat + 4)) / 4)) (List.drop 3 s.remaining) = List.drop (3 * ((s.dstcap.toNat - s.dstpos.toNat) / 4)) s.remaining := by
            rw [List.drop_drop, hq]; ring_nf
          have hbig : 3 < s.remaining.length := by
            have := hceil; simp only [ceilDiv] at hh; omega
          have htake : (encodedText s.remaining).take (s.dstcap.toNat - s.dstpos.toNat) =
              groupSymbols (bytes24 (s.remaining.getD 0 0) (s.remaining.getD 1 0) (s.remaining.getD 2 0)) (min s.remaining.length 3) ++
              (encodedText (s.remaining.drop 3)).take (s.dstcap.toNat - (s.dstpos.toNat + 4)) := by
            rw [hsplit, List.take_append, groupSymbols_length, List.take_of_length_le (by rw [groupSymbols_length]; omega)]
            rw [show s.dstcap.toNat - s.dstpos.toNat - 4 = s.dstcap.toNat - (s.dstpos.toNat + 4) by omega]
          rw [hd, htake, Memory.writeAll_append, groupSymbols_length]
          subst hv
          congr 2
          simp only [State.mk.injEq, true_and, and_true, forward_forward]
          constructor <;> congr 1 <;> omega

/-! ### The bytes and the flags -/

/-- `Clamp` after `SymToVal` after `Normalise` is the value of a symbol (R103, R104, R120). -/
theorem packedValue_eq : ∀ c : Byte, packedValue c = symbolValue c := by decide
/-- The lookup gives the sentinel exactly for an invalid symbol (R100). -/
theorem lookupFails_eq : ∀ c : Byte, lookupFails c = invalidSymbol c := by decide

/-- STATUS after the lookups: INV is set when one of the symbols is invalid (R22). -/
theorem statusAll_eq (cs : List Byte) (w : BitVec 5) : statusAll cs w = statusWord (w.getLsbD 4 || cs.any invalidSymbol) (w.extractLsb' 0 4) := by
  induction cs generalizing w with
  | nil => simp [statusAll]; revert w; decide
  | cons c cs ih =>
    have : statusAll (c :: cs) w = statusAll cs (statusAfter c w) := rfl
    rw [this, ih, statusAfter_inv, statusAfter_err, lookupFails_eq, List.any_cons, Bool.or_assoc]

/-- INVPOS after the lookups of symbols whose positions a cursor can hold (R23). -/
theorem invposAll_eq {cs : List Byte} {p : Cursor} {limit : Nat} (h : cs.length ≤ limit - p.toNat)
    (fits : limit < Config.cursorLimit) (w : BitVec 5) (q : Cursor) :
    (invposAll cs p w q).toNat = invposAfterAll cs p.toNat (w.getLsbD 4) q.toNat := by
  induction cs generalizing w p q with
  | nil => simp [invposAll, invposAfterAll]
  | cons c cs ih =>
    rw [List.length_cons] at h
    have hp : (forward p 1).toNat = p.toNat + 1 := toNat_forward (by omega) fits
    rw [invposAll, ih (by omega), statusAfter_inv, lookupFails_eq, hp]
    unfold invposAfterAll invposAfter
    rw [lookupFails_eq, List.findIdx?_cons]
    cases w.getLsbD 4 <;> cases hi : invalidSymbol c <;> simp
    cases hf : List.findIdx? invalidSymbol cs <;> simp [Nat.add_assoc, Nat.add_comm 1]

/-- PADC after one symbol (R13). -/
theorem padAfter_toNat (c : Byte) (q : BitVec 2) : (padAfter c q).toNat = if c = padSym then min (q.toNat + 1) 2 else 0 := by
  unfold padAfter
  split
  · simp [Config.padCeiling]
  · rfl

/-- PADC of a group is the length of its trailing run of padding symbols, at most 2 (R106). -/
theorem padAll_eq (cs : List Byte) : (padAll cs 0).toNat = padCount cs := by
  induction cs using List.reverseRecOn with
  | nil => rfl
  | append_singleton cs c ih =>
    have : padAll (cs ++ [c]) 0 = padAfter c (padAll cs 0) := by simp [padAll]
    rw [this, padAfter_toNat, ih]
    unfold padCount
    rw [List.reverse_append]
    simp only [List.reverse_singleton, List.singleton_append, List.takeWhile_cons, beq_iff_eq]
    split
    · simp; omega
    · simp

/-- The three bytes of four 6-bit values (R44). -/
theorem extract8_values24_zero (v0 v1 v2 v3 : Value6) : extract (values24 v0 v1 v2 v3) 0 8 = v0 ++ v1.extractLsb' 4 2 := by
  apply BitVec.eq_of_getLsbD_eq
  intro i hi
  rw [show (v0 ++ v1.extractLsb' 4 2 : Byte).getLsbD i = (v0 ++ v1.extractLsb' 4 2 : BitVec (6+2)).getLsbD i from rfl, BitVec.getLsbD_append]
  interval_cases i <;> simp [extract, getLsbD_values24, -BitVec.getLsbD_eq_getElem]

theorem extract8_values24_one (v0 v1 v2 v3 : Value6) : extract (values24 v0 v1 v2 v3) 1 8 = v1.extractLsb' 0 4 ++ v2.extractLsb' 2 4 := by
  apply BitVec.eq_of_getLsbD_eq
  intro i hi
  rw [show (v1.extractLsb' 0 4 ++ v2.extractLsb' 2 4 : Byte).getLsbD i = (v1.extractLsb' 0 4 ++ v2.extractLsb' 2 4 : BitVec (4+4)).getLsbD i from rfl, BitVec.getLsbD_append]
  interval_cases i <;> simp [extract, getLsbD_values24, -BitVec.getLsbD_eq_getElem]

theorem extract8_values24_two (v0 v1 v2 v3 : Value6) : extract (values24 v0 v1 v2 v3) 2 8 = v2.extractLsb' 0 2 ++ v3 := by
  apply BitVec.eq_of_getLsbD_eq
  intro i hi
  rw [show (v2.extractLsb' 0 2 ++ v3 : Byte).getLsbD i = (v2.extractLsb' 0 2 ++ v3 : BitVec (2+6)).getLsbD i from rfl, BitVec.getLsbD_append]
  interval_cases i <;> simp [extract, getLsbD_values24, -BitVec.getLsbD_eq_getElem]

/-- The bytes EMB writes are the first of the three fields (R101). -/
theorem groupBytes_take (a : Acc) (n : Nat) (h : n ≤ 3) : groupBytes a n = [extract a 0 8, extract a 1 8, extract a 2 8].take n := by
  interval_cases n <;> rfl

/-- ACC after the symbols of one group. -/
def groupValues (r : List Byte) : Acc :=
  values24 ((r[0]?.map packedValue).getD 0) ((r[1]?.map packedValue).getD 0)
          ((r[2]?.map packedValue).getD 0) ((r[3]?.map packedValue).getD 0)

/-- A missing symbol packs as the value of `A` (R106). -/
theorem packedValue_getD (r : List Byte) (k : Nat) : (r[k]?.map packedValue).getD 0 = symbolValue (r.getD k 0x41) := by
  rw [List.getD_eq_getElem?_getD]
  cases r[k]? with
  | none => simp; decide
  | some c => simp [packedValue_eq]

/-- The bytes of one group. -/
theorem groupValues_bytes (r : List Byte) (n : Nat) (h : n ≤ 3) : groupBytes (groupValues r) n =
   (bytesOfValues (symbolValue (r.getD 0 0x41)) (symbolValue (r.getD 1 0x41))
    (symbolValue (r.getD 2 0x41)) (symbolValue (r.getD 3 0x41))).take n := by
  rw [groupBytes_take _ _ h, groupValues, extract8_values24_zero, extract8_values24_one, extract8_values24_two, packedValue_getD, packedValue_getD, packedValue_getD, packedValue_getD]; rfl

theorem padCount_le (r : List Byte) : padCount r ≤ 2 := by unfold padCount; omega

/-- The bytes of the first group. -/
def firstBytes (r : List Byte) : List Byte := groupBytes (groupValues r) (if r.length ≤ 4 then 3 - padCount r else 3)

/-- The first group gives three bytes, or as many as its pad count leaves when it is the final one. -/
theorem firstBytes_length (r : List Byte) : (firstBytes r).length = if r.length ≤ 4 then 3 - padCount r else 3 := groupBytes_length _ _

/-- The bytes of a list are those of its first group and those of the rest (R102). -/
theorem decodedBytes_split (r : List Byte) (h : r ≠ []) : decodedBytes r = firstBytes r ++ decodedBytes (r.drop 4) := by
  unfold firstBytes
  rw [groupValues_bytes _ _ (by split <;> omega)]
  match r with
  | [a] => simp [decodedBytes, finalBytes]
  | [a,b] => simp [decodedBytes, finalBytes]
  | [a,b,c] => simp [decodedBytes, finalBytes]
  | [a,b,c,d] => simp [decodedBytes, finalBytes]
  | a::b::c::d::e::f =>
    have : ¬ (a::b::c::d::e::f).length ≤ 4 := by simp
    rw [if_neg this]; simp [decodedBytes, bytesOfValues]

/-- The state after the reads of one group of DEC. -/
def decodeFilled (s : State) (r : List Byte) : State := { s with
        acc := groupValues r, cnt := BitVec.ofNat 3 (min r.length 4), padc := padAll (r.take 4) 0
        status := statusAll (r.take 4) s.status, invpos := invposAll (r.take 4) s.srcpos s.status s.invpos
        srcpos := forward s.srcpos (min r.length 4) }

/-! ### DEC -/

/-- One group of DEC before the end of the source. -/
theorem decodeGroup_eq {s : State} (h : s.srcpos.toNat ≤ s.src.length) (r : List Byte) (hrr : s.remaining = r) (hr : r ≠ []) :
   ((firstBytes r).length ≤ s.dstcap.toNat - s.dstpos.toNat →
     decodeGroup s = .running { decodeFilled s r with
       dst := s.dst.writeAll s.dstpos.toNat (firstBytes r), dstpos := forward s.dstpos (firstBytes r).length }) ∧
   (s.dstcap.toNat - s.dstpos.toNat < (firstBytes r).length →
     decodeGroup s = .ended (({ decodeFilled s r with
       dst := s.dst.writeAll s.dstpos.toNat ((firstBytes r).take (s.dstcap.toNat - s.dstpos.toNat))
       dstpos := forward s.dstpos (s.dstcap.toNat - s.dstpos.toNat) } : State).setErr 4)) := by
  have hpos : 0 < r.length := List.length_pos_iff.2 hr
  have hlen := remaining_length h
  rw [hrr] at hlen
  have hend : srcAtEnd (decodeFilled s r) = decide (r.length ≤ 4) := by
    have hp : (forward s.srcpos (min r.length 4)).toNat = s.srcpos.toNat + min r.length 4 :=
      toNat_forward_srcpos (by rw [hrr]; omega)
    simp only [srcAtEnd, decodeFilled, hlen, hp]
    by_cases hh : r.length ≤ 4
    · simp [hh]
    · rw [decide_eq_false hh, beq_eq_false_iff_ne]; intro hc; omega
  have e : decodeGroup s = emitBytes (decide (r.length ≤ 4)) (decodeFilled s r) := by
    rw [decodeGroup, fillSymbols h, ← hend, hrr]; rfl
  have hcnt : (decodeFilled s r).cnt ≠ 0 := by
    intro hc
    have := congrArg BitVec.toNat hc
    simp only [decodeFilled] at this
    rw [toNat_ofNat_cnt (by omega)] at this
    change min r.length 4 = 0 at this; omega
  have hn : emitCount (decide (r.length ≤ 4)) (decodeFilled s r).padc = (firstBytes r).length := by
    rw [firstBytes_length]
    simp only [emitCount, decide_eq_true_eq]
    split
    · rename_i hh
      simp only [decodeFilled, padAll_eq, List.take_of_length_le hh]
    · rfl
  have hg : groupBytes (decodeFilled s r).acc (emitCount (decide (r.length ≤ 4)) (decodeFilled s r).padc) = firstBytes r := by
    rw [hn, firstBytes_length]; rfl
  have hc1 : (decodeFilled s r).dstcap = s.dstcap := rfl
  have hc2 : (decodeFilled s r).dstpos = s.dstpos := rfl
  have hc3 : (decodeFilled s r).dst = s.dst := rfl
  rw [e]
  rcases emitBytes_cases (decide (r.length ≤ 4)) (decodeFilled s r) with ⟨hc, _⟩ | ⟨_, hroom, he⟩ | ⟨_, hroom, he⟩
  · exact absurd hc hcnt
  · rw [hn, hc1, hc2] at hroom
    refine ⟨fun _ => ?_, fun hh => by omega⟩
    rw [he, hg, hn, hc2, hc3]
  · rw [hn, hc1, hc2] at hroom
    refine ⟨fun hh => by omega, fun _ => ?_⟩
    rw [he, hg, hc1, hc2, hc3]; rfl

/-- A group that is not the final one gives three bytes. -/
theorem firstBytes_length_of_lt (r : List Byte) (h : 4 < r.length) : (firstBytes r).length = 3 := by
  rw [firstBytes_length, if_neg (by omega)]

/-- The lookups of a list, one part after the other. -/
theorem statusAll_append (a b : List Byte) (w : BitVec 5) : statusAll (a ++ b) w = statusAll b (statusAll a w) := by simp [statusAll]

theorem invposAll_append (a b : List Byte) (p : Cursor) (w : BitVec 5) (q : Cursor) :
    invposAll (a ++ b) p w q = invposAll b (forward p a.length) (statusAll a w) (invposAll a p w q) := by
  induction a generalizing p w q with
  | nil => simp [invposAll, statusAll]
  | cons c a ih =>
    simp only [List.cons_append, invposAll, ih, List.length_cons, forward_forward, Nat.add_comm 1]; rfl

theorem groupValues_take (r : List Byte) : groupValues (r.take 4) = groupValues r := by
  simp [groupValues]

/-- The state DEC ends in with room for the bytes (R102). -/
def decodeFits (s : State) (r : List Byte) : State := if r = [] then s else { s with
  acc := groupValues (lastGroup 4 r), cnt := BitVec.ofNat 3 (lastGroup 4 r).length, padc := padAll (lastGroup 4 r) 0
  status := statusAll r s.status, invpos := invposAll r s.srcpos s.status s.invpos
  srcpos := forward s.srcpos r.length, dst := s.dst.writeAll s.dstpos.toNat (decodedBytes r), dstpos := forward s.dstpos (decodedBytes r).length }

/-- The state DEC ends in without room for the bytes (R154, R159). -/
def decodeShort (s : State) (r : List Byte) : State :=
  let room := s.dstcap.toNat - s.dstpos.toNat
  let g := (r.drop (4 * (room / 3))).take 4
  let rd := r.take (4 * (room / 3) + 4)
  ({ s with
       acc := groupValues g, cnt := BitVec.ofNat 3 g.length, padc := padAll g 0
       status := statusAll rd s.status, invpos := invposAll rd s.srcpos s.status s.invpos
       srcpos := forward s.srcpos (4 * (room / 3) + g.length), dst := s.dst.writeAll s.dstpos.toNat ((decodedBytes r).take room)
       dstpos := forward s.dstpos room } : State).setErr 4

theorem setErr_congr {a b : State} (h : a = b) : a.setErr 4 = b.setErr 4 := by rw [h]

/-- The whole loop of DEC: with room for the bytes it writes all of them, and without it stops in the group that does not fit
(R102, R154, R159). -/
theorem decodeLoop_eq : ∀ (fuel : Nat) (s : State) (r : List Byte), s.remaining = r → s.srcpos.toNat ≤ s.src.length → r.length < fuel →
   ((decodedBytes r).length ≤ s.dstcap.toNat - s.dstpos.toNat → whileSource decodeGroup fuel s = .running (decodeFits s r)) ∧
   (s.dstcap.toNat - s.dstpos.toNat < (decodedBytes r).length → whileSource decodeGroup fuel s = .ended (decodeShort s r)) := by
  intro fuel
  induction fuel with
  | zero => intro s r _ _ h; omega
  | succ fuel ih =>
    intro s r hrr h hf
    have hlen := remaining_length h
    rw [hrr] at hlen
    by_cases hr : r = []
    · have : s.srcpos.toNat = s.src.length := by simpa [hrr, hr] using forward_remaining h
      rw [whileSource_atEnd this]
      refine ⟨fun _ => ?_, fun hh => ?_⟩
      · simp [hr, decodeFits]
      · rw [hr] at hh; simp [decodedBytes] at hh
    · have hpos : 0 < r.length := List.length_pos_iff.2 hr
      rw [whileSource_of_more (by omega)]
      obtain ⟨hfit, hshort⟩ := decodeGroup_eq h r hrr hr
      have hsplit := decodedBytes_split r hr
      have hl : (decodedBytes r).length = (firstBytes r).length + (decodedBytes (r.drop 4)).length := by rw [hsplit, List.length_append]
      have hfl := firstBytes_length r
      have hpc := padCount_le r
      rcases Nat.lt_or_ge (s.dstcap.toNat - s.dstpos.toNat) (firstBytes r).length with hroom | hroom
      · rw [hshort hroom, andThen_ended]
        refine ⟨fun hh => by omega, fun _ => ?_⟩
        have h0 : (s.dstcap.toNat - s.dstpos.toNat) / 3 = 0 := by
          have : (firstBytes r).length ≤ 3 := by rw [hfl]; split <;> omega
          omega
        simp only [decodeShort, h0, Nat.mul_zero, List.drop_zero, Nat.zero_add]
        rw [hsplit, List.take_append_of_le_length (by omega), groupValues_take, List.length_take, Nat.min_comm 4]
        rfl
      · rw [hfit hroom, andThen_running]
        generalize hv : ({ decodeFilled s r with dst := s.dst.writeAll s.dstpos.toNat (firstBytes r), dstpos := forward s.dstpos (firstBytes r).length } : State) = v
        have hvsrc : v.srcpos.toNat = s.srcpos.toNat + min r.length 4 := by
          subst hrr hv; exact toNat_forward_srcpos (Nat.min_le_left _ _)
        have hvlen : v.src = s.src := by subst hv; rfl
        have hvrem : v.remaining = r.drop 4 := by
          subst hrr hv
          exact src_drop_group s 4
        have hvcap : v.dstcap.toNat = s.dstcap.toNat := by subst hv; rfl
        have hvpos : v.dstpos.toNat = s.dstpos.toNat + (firstBytes r).length := by subst hv; exact toNat_forward_dstpos hroom
        obtain ⟨ihf, ihs⟩ := ih v (r.drop 4) hvrem (by rw [hvlen, hvsrc]; omega) (by rw [List.length_drop]; omega)
        have hrs : statusAll (r.drop 4) (statusAll (r.take 4) s.status) = statusAll r s.status := by
          rw [← statusAll_append, List.take_append_drop]
        have hpp : invposAll (r.drop 4) (forward s.srcpos (min r.length 4)) (statusAll (r.take 4) s.status) (invposAll (r.take 4) s.srcpos s.status s.invpos) = invposAll r s.srcpos s.status s.invpos := by
          conv_rhs => rw [← List.take_append_drop 4 r, invposAll_append, List.length_take, Nat.min_comm]
        refine ⟨fun hh => ?_, fun hh => ?_⟩
        · have hmin : min r.length 4 + (r.length - 4) = r.length := by omega
          have hp := toNat_forward_dstpos hroom
          rw [ihf (by omega)]
          subst hv
          congr 1
          rcases Nat.lt_or_ge 4 r.length with hl4 | hl4
          · have hne : r.drop 4 ≠ [] := by
              intro hc; have := congrArg List.length hc; simp at this; omega
            simp only [decodeFits, hne, hr, if_false, lastGroup_drop 4 (by omega) _ hl4, decodeFilled, hrs, hpp, hsplit, Memory.writeAll_append, List.length_append, forward_forward, hp, List.length_drop, hmin]
          · have hn : r.drop 4 = [] := List.drop_eq_nil_of_le hl4
            simp [decodeFits, hn, hr, lastGroup_short 4 _ hl4 hr, decodeFilled, hsplit, Nat.min_eq_left hl4, List.take_of_length_le hl4, decodedBytes, groupValues]
        · rw [ihs (by omega)]
          have hbig : 4 < r.length := by
            rcases Nat.lt_or_ge 4 r.length with hl4 | hl4
            · exact hl4
            · have hn : r.drop 4 = [] := List.drop_eq_nil_of_le hl4
              rw [hn] at hl; simp [decodedBytes] at hl; omega
          have hf3 := firstBytes_length_of_lt r hbig
          have hp := toNat_forward_dstpos hroom
          rw [hf3] at hp
          have hq : (s.dstcap.toNat - s.dstpos.toNat) / 3 = (s.dstcap.toNat - (s.dstpos.toNat + 3)) / 3 + 1 := by omega
          subst hv
          congr 1
          simp only [decodeShort, hf3, hp, show (decodeFilled s r).dstcap = s.dstcap from rfl]
          apply setErr_congr
          have hd : List.drop (4 * ((s.dstcap.toNat - (s.dstpos.toNat + 3)) / 3)) (r.drop 4) = r.drop (4 * ((s.dstcap.toNat - s.dstpos.toNat) / 3)) := by
            rw [List.drop_drop, hq]; congr 1; omega
          have htk : r.take (4 * ((s.dstcap.toNat - s.dstpos.toNat) / 3) + 4) = r.take 4 ++ (r.drop 4).take (4 * ((s.dstcap.toNat - (s.dstpos.toNat + 3)) / 3) + 4) := by
            rw [hq, show 4 * ((s.dstcap.toNat - (s.dstpos.toNat + 3)) / 3 + 1) + 4 = 4 + (4 * ((s.dstcap.toNat - (s.dstpos.toNat + 3)) / 3) + 4) by omega, List.take_add]
          have hm : min r.length 4 = 4 := by omega
          have htake : (decodedBytes r).take (s.dstcap.toNat - s.dstpos.toNat) = firstBytes r ++ (decodedBytes (r.drop 4)).take (s.dstcap.toNat - (s.dstpos.toNat + 3)) := by
            rw [hsplit, List.take_append, hf3, List.take_of_length_le (by omega), show s.dstcap.toNat - s.dstpos.toNat - 3 = s.dstcap.toNat - (s.dstpos.toNat + 3) by omega]
          rw [hd, htk, htake, statusAll_append, invposAll_append, Memory.writeAll_append, hf3]
          simp only [State.mk.injEq, true_and, and_true, decodeFilled, hm, forward_forward]
          refine ⟨?_, ?_, ?_⟩
          · rw [List.length_take, Nat.min_eq_left (by omega)]
          · congr 1; omega
          · congr 1; omega

end Sys2Proof.Machine
end

