-- ==== Sys2Proof/Laws/Writes.lean ====
section
/-!
SUPPORT. What any command writes to DST, said once for all of them, and what a reset leaves there.
-/

namespace Sys2Proof.Machine

/-- The elements that a command writes where the destination takes them all. DSTCAP has no part in it. -/
def elements (i : Instr) (s : State) : List Byte :=
  match i with
  | .ems     => if s.cnt = 0 ∨ s.cnt = 4 then [] else groupSymbols s.acc s.cnt.toNat
  | .emb fin => if s.cnt = 0 then [] else groupBytes s.acc (emitCount fin s.padc)
  | .enc     => encodedText s.remaining
  | .dec     => decodedBytes s.remaining
  | .s2v _ | .v2s _ | .xbit _ _ | .clra | .pk8 _ | .pk6 _ | .clrf => []

/-- `t` has the first elements of `vs` that the destination of `s` takes, from DSTPOS of `s` on, and nothing else new in DST. -/
def tookElements (s t : State) (vs : List Byte) : Prop :=
  t.dst = s.dst.writeAll s.dstpos.toNat (vs.take s.room) ∧ t.dstpos = forward s.dstpos (min vs.length s.room)

/-- A state with DST and DSTPOS as before took nothing. -/
theorem tookElements_nil {s t : State} (h : t.dst = s.dst) (hp : t.dstpos = s.dstpos) : tookElements s t [] := by
  simp [tookElements, h, hp, Memory.writeAll]

/-- What was taken reads back, in the form of the statements. -/
theorem wrote_of_tookElements {s t : State} {vs : List Byte} (h : tookElements s t vs) : wrote s t (vs.take s.room) := by
  refine ⟨?_, fun p => by rw [h.1, Memory.read_writeAll]⟩
  rw [h.2, List.length_take, Nat.min_comm]
  exact toNat_forward_dstpos (Nat.min_le_left _ _)

/-- One list of `DstWrite`s takes what fits, with or without a fault at its end (R43, R159). -/
theorem dstWriteAll_outcome (vs : List Byte) (s : State) :
    ∃ t, (dstWriteAll vs s).outcome = .next t ∧ tookElements s t vs := by
  rcases Nat.lt_or_ge s.room vs.length with h | h
  · refine ⟨_, congrArg Flow.outcome (dstWriteAll_of_short h), rfl, ?_⟩
    rw [Nat.min_eq_right (Nat.le_of_lt h)]; rfl
  · refine ⟨_, congrArg Flow.outcome (dstWriteAll_of_fits h), ?_, ?_⟩
    · rw [List.take_of_length_le h]
    · rw [Nat.min_eq_left h]

/-- ENC takes as much of the text as fits (R83, R154). -/
theorem execEnc_takes {s : State} (h : s.srcpos.toNat ≤ s.src.length) :
    ∃ t, execEnc s = .next t ∧ tookElements s t (encodedText s.remaining) := by
  have hfuel : s.remaining.length < sourceFuel s := by simp [State.remaining, sourceFuel]
  obtain ⟨fits, short⟩ := encodeLoop_eq (sourceFuel s) s h hfuel
  have hl := encodedText_length s.remaining
  rcases Nat.lt_or_ge s.room (encodedText s.remaining).length with hr | hr
  · refine ⟨_, congrArg Flow.outcome (short (hl ▸ hr)), rfl, ?_⟩
    rw [Nat.min_eq_right (Nat.le_of_lt hr)]; rfl
  · refine ⟨_, congrArg Flow.outcome (fits (hl ▸ hr)), ?_, ?_⟩
    · rw [List.take_of_length_le hr]
    · rw [Nat.min_eq_left hr]

/-- DEC takes as many of the bytes as fit (R102, R154). -/
theorem execDec_takes {s : State} (h : s.srcpos.toNat ≤ s.src.length) :
    ∃ t, execDec s = .next t ∧ tookElements s t (decodedBytes s.remaining) := by
  have hfuel : s.remaining.length < sourceFuel s := by simp [State.remaining, sourceFuel]
  obtain ⟨fits, short⟩ := decodeLoop_eq (sourceFuel s) s _ rfl h hfuel
  rcases Nat.lt_or_ge s.room (decodedBytes s.remaining).length with hr | hr
  · refine ⟨_, congrArg Flow.outcome (short hr), rfl, ?_⟩
    rw [Nat.min_eq_right (Nat.le_of_lt hr)]; rfl
  · refine ⟨_, congrArg Flow.outcome (fits hr), ?_⟩
    by_cases he : s.remaining = []
    · rw [he]
      exact tookElements_nil (by simp [decodeFits]) (by simp [decodeFits])
    · simp only [tookElements, decodeFits, if_neg he]
      exact ⟨by rw [List.take_of_length_le hr], by rw [Nat.min_eq_left hr]⟩

/-- Everything a command does to DST and DSTPOS: it takes as many of its elements as fit (R43, R50, R159). -/
theorem exec_takes {i : Instr} {s t : State} (h : s.srcpos.toNat ≤ s.src.length) (e : exec i s = .next t) :
    tookElements s t (elements i s) := by
  have only {u : State} {vs : List Byte} (hu : exec i s = .next u) (hw : tookElements s u vs) : tookElements s t vs := by
    rw [hu] at e; cases e; exact hw
  cases i with
  | enc => exact (execEnc_takes h).elim fun _ hu => only hu.1 hu.2
  | dec => exact (execDec_takes h).elim fun _ hu => only hu.1 hu.2
  | ems =>
    by_cases hc : s.cnt = 0 ∨ s.cnt = 4
    · simp only [elements, if_pos hc]
      exact only (u := s.setErr 3) (by simp only [exec, execEms, emitSymbols, if_pos hc]; rfl) (tookElements_nil rfl rfl)
    · obtain ⟨u, hu, hw⟩ := dstWriteAll_outcome (groupSymbols s.acc s.cnt.toNat) s
      simp only [elements, if_neg hc]
      exact only (by simpa only [exec, execEms, emitSymbols, if_neg hc] using hu) hw
  | emb fin =>
    by_cases hc : s.cnt = 0
    · simp only [elements, if_pos hc]
      exact only (u := s.setErr 3) (by simp only [exec, execEmb, emitBytes, if_pos hc]; rfl) (tookElements_nil rfl rfl)
    · obtain ⟨u, hu, hw⟩ := dstWriteAll_outcome (groupBytes s.acc (emitCount fin s.padc)) s
      simp only [elements, if_neg hc]
      exact only (by simpa only [exec, execEmb, emitBytes, if_neg hc] using hu) hw
  | clra => exact only rfl (tookElements_nil rfl rfl)
  | clrf => exact only rfl (tookElements_nil rfl rfl)
  | s2v sym => exact only rfl (tookElements_nil rfl rfl)
  | v2s val =>
    simp only [exec, execV2s] at e
    split at e <;> cases e <;> exact tookElements_nil rfl rfl
  | xbit w idx =>
    cases w with
    | six => exact only rfl (tookElements_nil rfl rfl)
    | eight =>
      simp only [exec, execXbit] at e
      split at e <;> cases e <;> exact tookElements_nil rfl rfl
  | pk8 b =>
    simp only [exec, execPk8, packByte] at e
    split at e <;> cases e <;> exact tookElements_nil rfl rfl
  | pk6 c =>
    simp only [exec, execPk6, packSymbol] at e
    split at e <;> cases e <;> exact tookElements_nil rfl rfl

/-! ### Reset (70_reset_and_hazards.md R180) -/

section
variable (n : Nat) (s : State)

@[simp] theorem stopWritesAfter_acc : (stopWritesAfter n s).acc = s.acc := rfl
@[simp] theorem stopWritesAfter_cnt : (stopWritesAfter n s).cnt = s.cnt := rfl
@[simp] theorem stopWritesAfter_padc : (stopWritesAfter n s).padc = s.padc := rfl
@[simp] theorem stopWritesAfter_res : (stopWritesAfter n s).res = s.res := rfl
@[simp] theorem stopWritesAfter_status : (stopWritesAfter n s).status = s.status := rfl
@[simp] theorem stopWritesAfter_invpos : (stopWritesAfter n s).invpos = s.invpos := rfl
@[simp] theorem stopWritesAfter_srcpos : (stopWritesAfter n s).srcpos = s.srcpos := rfl
@[simp] theorem stopWritesAfter_dstpos : (stopWritesAfter n s).dstpos = s.dstpos := rfl
@[simp] theorem stopWritesAfter_src : (stopWritesAfter n s).src = s.src := rfl
@[simp] theorem stopWritesAfter_dst : (stopWritesAfter n s).dst = s.dst := rfl
@[simp] theorem stopWritesAfter_leftover : (stopWritesAfter n s).leftover = s.leftover := rfl
@[simp] theorem stopWritesAfter_inbox : (stopWritesAfter n s).inbox = s.inbox := rfl
@[simp] theorem stopWritesAfter_reply : (stopWritesAfter n s).reply = s.reply := rfl
@[simp] theorem stopWritesAfter_abandoned : (stopWritesAfter n s).abandoned = s.abandoned := rfl
@[simp] theorem stopWritesAfter_remaining : (stopWritesAfter n s).remaining = s.remaining := rfl
@[simp] theorem stopWritesAfter_dropped (w : Word) : dropped w (stopWritesAfter n s) = dropped w s := rfl

/-- At most `n` elements fit, and no more than did. -/
theorem stopWritesAfter_room : (stopWritesAfter n s).room = min n s.room := by
  simp only [State.room, stopWritesAfter]
  split
  · simp only [BitVec.toNat_ofNatLT]; omega
  · omega

/-- The elements are those of the command without the stop. -/
@[simp] theorem stopWritesAfter_elements (i : Instr) : elements i (stopWritesAfter n s) = elements i s := by
  cases i <;> rfl

end

/-- What stands in DST after a reset is what stood there before (R180, R181). -/
@[simp] theorem resetBlock_contents (s : State) (p : Nat) : (resetBlock s).contents p = s.contents p := by
  simp [resetBlock, State.contents, State.reset, Memory.read_overlay]

end Sys2Proof.Machine
end

