-- ==== Sys2Proof/Tests/Slice0.lean ====
section
/-!
SUPPORT. The model's own tests, and a witness for the hypotheses of every statement that has some.
The expected values are those of spec/95_test_vectors.md (the V, P and X numbers) and of the encoding tables of spec/30_encoding.md.
-/

namespace Sys2Proof.Tests

open Sys2Proof Sys2Proof.Machine

/-! ### Helpers -/

/-- The codes of a text. -/
def str (text : String) : List Byte := text.toList.map fun c => BitVec.ofNat 8 c.toNat

/-- A cursor register has at least three bits, whatever CW is (R6). -/
theorem eight_le_cursorLimit : 8 ≤ Config.cursorLimit := Nat.pow_le_pow_right (by decide : 2 > 0) Config.three_le_CW

/-- A number below 8 in a cursor register. -/
def cursor (n : Nat) (h : n < 8 := by decide) : Cursor := .ofNatLT n (Nat.lt_of_lt_of_le h eight_le_cursorLimit)

/-- A text of fewer than 8 elements as a source. -/
def source (text : String) (h : (str text).length < 8 := by decide) : Source :=
  ⟨str text, Nat.lt_of_lt_of_le h eight_le_cursorLimit⟩

/-- The reset state with a source bound and a capacity set. -/
def bound (text : String) (cap : Nat) (ht : (str text).length < 8 := by decide) (hc : cap < 8 := by decide) : State :=
  { State.reset with src := source text ht, dstcap := cursor cap hc }

/-- A next state with the property. -/
def after (o : Host.Outcome State Fault Refusal) (p : State → Bool) : Bool :=
  match o with
  | .next s => p s
  | _ => false

/-- The elements of the destination at the positions from `p` on. -/
def written (s : State) (p n : Nat) : List (Option Byte) := (List.range n).map fun k => s.dst.read (p + k)

/-- A group of one encoder byte, `M`, with room for its four symbols. -/
def oneByte : State := { State.reset with acc := 0x4D0000, cnt := 1, dstcap := cursor 4 }

/-- A group of four decoder symbols, `TQ==`. -/
def fourSymbols : State := { State.reset with acc := 0x4D0000, cnt := 4, padc := 2, dstcap := cursor 3 }

/-- A state with the fault `Range` pending and the actions `inbox` waiting. -/
def faulted (inbox : List HostAction) : State := { State.reset with status := 0x02, inbox := inbox }

/-- The state after V1, with two actions waiting. -/
def worked : State :=
  { acc := 0x4D616E, cnt := 3, padc := 0, res := 0x54, status := 0x10, invpos := cursor 1, srcpos := cursor 3,
    dstpos := cursor 4, dstcap := cursor 4, src := source "Man", dst := [(0, 0x54), (1, 0x57), (2, 0x46), (3, 0x75)], leftover := [(0, 0x2A), (6, 0x2A)],
    inbox := [.issue 0x6000, .writeRegister 7 (cursor 7)], reply := some 4, abandoned := 1 }

/-! ### Words, bit by bit (30_encoding.md R61 to R63) -/

theorem test_word_enc : decode 0b0001_000000000000 = .ok .enc := by decide
theorem test_word_dec : decode 0b0010_000000000000 = .ok .dec := by decide
theorem test_word_s2v : decode 0b0011_0000_01010100 = .ok (.s2v 0x54) := by decide
theorem test_word_v2s : decode 0b0100_0000_00010011 = .ok (.v2s 19) := by decide
theorem test_word_xbit_six : decode 0b0101_000000000_0_11 = .ok (.xbit .six 3) := by decide
theorem test_word_xbit_eight : decode 0b0101_000000000_1_10 = .ok (.xbit .eight 2) := by decide
theorem test_word_clra : decode 0b0110_000000000000 = .ok .clra := by decide
theorem test_word_pk8 : decode 0b0111_0000_01001101 = .ok (.pk8 0x4D) := by decide
theorem test_word_pk6 : decode 0b1000_0000_00111101 = .ok (.pk6 0x3D) := by decide
theorem test_word_ems : decode 0b1001_000000000000 = .ok .ems := by decide
theorem test_word_emb_fin : decode 0b1010_00000000000_1 = .ok (.emb true) := by decide
theorem test_word_emb_more : decode 0b1010_00000000000_0 = .ok (.emb false) := by decide
theorem test_word_clrf : decode 0b1011_000000000000 = .ok .clrf := by decide

/-- The illegal words of V108 to V114. -/
theorem test_words_illegal :
    [0x0000, 0xFFFF, 0xC000, 0xD123, 0xE000, 0x1001, 0x2800, 0x3154, 0x5008, 0xA002, 0xB001, 0x6001, 0x9010].all
      (fun w => decodeTableWord 16 w == none) = true := by decide

/-! ### WellFormed: each check refuses an ill-formed term (R67, R142, R143)

The check of a command refuses no term, because each operand has exactly the width of its field (Syntax.lean). -/

theorem test_byte_in_range : Asm.byteInRange 255 ∧ ¬ Asm.byteInRange 256 := by decide
theorem test_width_in_range : Asm.widthInRange 6 ∧ Asm.widthInRange 8 ∧ ¬ Asm.widthInRange 7 := by decide
theorem test_idx_in_range : Asm.idxInRange 3 ∧ ¬ Asm.idxInRange 4 := by decide
theorem test_fin_in_range : Asm.finInRange 1 ∧ ¬ Asm.finInRange 2 := by decide

theorem test_cursor_in_range : Asm.cursorInRange 7 ∧ ¬ Asm.cursorInRange Config.cursorLimit :=
  ⟨eight_le_cursorLimit, Nat.lt_irrefl _⟩

theorem test_command_wellFormed : (Instr.pk6 0xFF).WellFormed ∧ (Instr.xbit .eight 3).WellFormed := by decide

/-! ### One command each -/

/-- V1. -/
theorem test_enc_man : after (exec .enc (bound "Man" 4)) (fun t =>
    written t 0 4 == (str "TWFu").map some && t.acc == 0x4D616E && t.cnt == 3 && t.srcpos.toNat == 3 && t.dstpos.toNat == 4 &&
    t.status == 0) = true := by decide

/-- V92: the fault comes at a padding symbol of the second group. -/
theorem test_enc_short : after (exec .enc (bound "Many" 6)) (fun t =>
    written t 0 6 == (str "TWFueQ").map some && t.acc == 0x790000 && t.cnt == 1 && t.srcpos.toNat == 4 && t.dstpos.toNat == 6 &&
    t.status == 0x04) = true := by decide

/-- V42: an invalid symbol is flagged with its position in the source, and makes the group before it one that is not final. -/
theorem test_dec_invalid : after (exec .dec (bound "TWE=\n" 6)) (fun t =>
    written t 0 6 == [0x4D, 0x61, 0x00, 0x00, 0x00, 0x00].map some && t.acc == 0 && t.cnt == 1 && t.padc == 0 &&
    t.status == 0x10 && t.invpos.toNat == 4 && t.srcpos.toNat == 5 && t.dstpos.toNat == 6) = true := by decide

/-- V38: only the trailing run of padding counts. -/
theorem test_dec_padding : after (exec .dec (bound "T=E=" 3)) (fun t =>
    written t 0 3 == [some 0x4C, some 0x01, none] && t.acc == 0x4C0100 && t.cnt == 4 && t.padc == 1 && t.dstpos.toNat == 2 &&
    t.status == 0) = true := by decide

/-- V53 and V58: the padding symbol is not normalised by S2V. -/
theorem test_s2v_last_letter : after (exec (.s2v 0x7A) State.reset) (fun t => t.res == 0x33) = true := by decide
theorem test_s2v_padding : after (exec (.s2v 0x3D) State.reset) (fun t => t.res == 0x40 && t.status == 0) = true := by decide

/-- V63 and V68. -/
theorem test_v2s_last_letter : after (exec (.v2s 51) State.reset) (fun t => t.res == 0x7A) = true := by decide
theorem test_v2s_range : after (exec (.v2s 64) State.reset) (fun t => t.res == 0 && t.status == 0x02) = true := by decide

/-- V72: field 0 is the most significant. -/
theorem test_xbit_six : after (exec (.xbit .six 0) { State.reset with acc := 0xABCDEF }) (fun t => t.res == 0x2A) = true := by
  decide

/-- V76. -/
theorem test_xbit_range : after (exec (.xbit .eight 3) { State.reset with acc := 0xABCDEF })
    (fun t => t.res == 0 && t.status == 0x02) = true := by decide

/-- V81, its first word, on a group that holds something. -/
theorem test_clra : after (exec .clra fourSymbols)
    (fun t => t.acc == 0 && t.cnt == 0 && t.padc == 0 && t.dstcap.toNat == 3) = true := by
  decide

/-- V85: PK8 0x61 after PK6 `T`. -/
theorem test_pk8_field : after (exec (.pk8 0x61) { State.reset with acc := 0x4C0000, cnt := 1 })
    (fun t => t.acc == 0x4C6100 && t.cnt == 2) = true := by decide

/-- V80, its fifth word. -/
theorem test_pk8_full : after (exec (.pk8 0x04) { State.reset with acc := 0x010203, cnt := 3 })
    (fun t => t.acc == 0x010203 && t.cnt == 3 && t.status == 0x03) = true := by decide

/-- V83, its third word: INVPOS takes CNT as it was before. -/
theorem test_pk6_invalid : after (exec (.pk6 0x21) { State.reset with acc := 0x4C0000, cnt := 1 })
    (fun t => t.acc == 0x4C0000 && t.cnt == 2 && t.status == 0x10 && t.invpos.toNat == 1) = true := by decide

/-- V86: the field is replaced, and PADC is cleared by a symbol that is not padding. -/
theorem test_pk6_replaces : after (exec (.pk6 0x2F) { State.reset with acc := 0xABCDEF, cnt := 3, padc := 2 })
    (fun t => t.acc == 0xABCDFF && t.cnt == 4 && t.padc == 0) = true := by decide

/-- V87, CNT 2. -/
theorem test_ems_two : after (exec .ems { State.reset with acc := 0xFFFF00, cnt := 2, dstcap := cursor 4 })
    (fun t => written t 0 4 == (str "//8=").map some && t.dstpos.toNat == 4 && t.cnt == 2) = true := by decide

/-- V106: the entry check comes before the capacity. -/
theorem test_ems_empty : after (exec .ems State.reset) (fun t => t.status == 0x03 && t.dstpos.toNat == 0) = true := by decide

/-- V88, PADC 2. -/
theorem test_emb_fin : after (exec (.emb true) fourSymbols)
    (fun t => written t 0 3 == [some 0x4D, none, none] && t.dstpos.toNat == 1) = true := by decide
theorem test_emb_more : after (exec (.emb false) fourSymbols)
    (fun t => written t 0 3 == [some 0x4D, some 0, some 0] && t.dstpos.toNat == 3) = true := by decide

/-- V116. -/
theorem test_clrf : after (exec .clrf worked)
    (fun t => t.status == 0 && t.invpos.toNat == 0 && t.acc == 0x4D616E && t.dst == worked.dst) = true := by decide

/-! ### One step each -/

/-- V115: a word is dropped before it is decoded. -/
theorem test_step_dropped : after (step (faulted [.issue 0x0000])) (fun t => t.status == 0x02 && t.inbox == []) = true := by
  decide

/-- V108: an illegal word. -/
theorem test_step_illegal : after (step { State.reset with inbox := [.issue 0x0000] }) (fun t => t.status == 0x01) = true := by
  decide

/-- `withFetchWord` from reset runs the word it stores. -/
theorem test_step_fetched : after (step (State.reset.withFetchWord 16 0x704D)) (fun t => t.acc == 0x4D0000 && t.cnt == 1) = true := by
  decide

/-- R24: STATUS reads as INV and ERR. -/
theorem test_step_read_status : after (step { worked with inbox := [.readRegister 4] }) (fun t => t.reply == some 0x10) = true := by
  decide

/-- R180, R32: reset leaves what stands in DST, where every position counts as unwritten. -/
theorem test_step_reset : after (step { worked with inbox := [.assertReset, .readDestination 3] }) (fun t =>
    t.contents 3 == some 0x75 && t.contents 6 == some 0x2A && t.dst == [] && t.dstcap.toNat == 0 && t.acc == 0 &&
    after (step t) (fun _ => true) == false) = true := by decide

/-- R180: a reset during a command resets every register and clears a pending fault. -/
theorem test_step_reset_during : after (step (faulted [.resetDuring 0x1000, .issue 0x6000])) (fun t =>
    t.status == 0 && t.abandoned == 1 && t.inbox == [.issue 0x6000] && t.dst == []) = true := by decide

/-! ### The assembler (V121 to V129) -/

theorem test_asm_character : Asm.assemble "S2V 'T'".toList = some [.issue 0x3054] := by decide
theorem test_asm_pseudo : Asm.assemble "UP8 2 ; last byte".toList = some [.issue 0x5006] := by decide
theorem test_asm_accepts_range : Asm.assemble "XBIT 8, 3".toList = some [.issue 0x5007] := by decide
theorem test_asm_refuses : Asm.assemble "XBIT 7, 0".toList = none := by decide
theorem test_asm_source : Asm.action (.src [0x4D, 0x61, 0x6E]) = some (.bindSource (source "Man")) := by
  show Asm.sourceAction (str "Man") = _
  exact dif_pos (Nat.lt_of_lt_of_le (by decide : 3 < 8) eight_le_cursorLimit)
theorem test_asm_directive : Asm.action (.dstcap 6) = some (.writeRegister 8 (cursor 6)) :=
  dif_pos (Nat.lt_of_lt_of_le (by decide : 6 < 8) eight_le_cursorLimit)

/-- The line of a text, without its host action. -/
def lineOfText (text : String) : Option Asm.Line :=
  match Asm.tokens text.toList.length text.toList with
  | some (.name name :: args) => Asm.lineOf name args
  | _ => none

theorem test_asm_lines :
    lineOfText ".src \"Man\"" = some (.src [0x4D, 0x61, 0x6E]) ∧ lineOfText ".dstcap 0x10" = some (.dstcap 16) := by decide

/-- The model's choice of log 15: a comma after the last number is refused, and no operand is the empty list. -/
theorem test_asm_byte_list :
    lineOfText ".src 1, 0x02" = some (.src [1, 2]) ∧ lineOfText ".src" = some (.src []) ∧ lineOfText ".src 1," = none := by decide

/-- The model's choice of log 15: no space is needed before a quoted operand. -/
theorem test_asm_no_space : lineOfText "S2V'T'" = some (.s2v 0x54) ∧ lineOfText ".src\"M\"" = some (.src [0x4D]) := by decide

/-! ### Witnesses: a concrete state and operands that meet the hypotheses of each statement -/

theorem witness_DecodeOfEncodeIsTheCommand : (Instr.pk8 0xFF).WellFormed ∧ (Instr.xbit .eight 3).WellFormed := by decide
theorem witness_DecodedWordIsItsEncoding : decode 0x5007 = .ok (.xbit .eight 3) := by decide
theorem witness_PseudoInstructionsExpand :
    (3 < 4 ∧ Asm.action (.up8 3) = some (.issue 0x5007)) ∧ 2 ^ Config.CW ≤ Config.cursorLimit := ⟨by decide, Nat.le_refl _⟩

theorem witness_StepRunsTheDecodedCommand :
    (worked.inbox = .issue 0x6000 :: [.writeRegister 7 (cursor 7)] ∧ decode 0x6000 = .ok .clra ∧ worked.err = 0) ∧
    ((faulted [.issue 0xB000]).inbox = [.issue 0xB000] ∧ decode 0xB000 = .ok .clrf ∧ (faulted [.issue 0xB000]).err ≠ 0) ∧
    (decode (BitVec.ofNat 16 0xA001) = .ok (.emb true) ∧ 0xA001 < 2 ^ 16) := by decide

theorem witness_IllegalWordRaisesCodeOne :
    ({ worked with inbox := [.issue 0x1001] } : State).inbox = [.issue 0x1001] ∧
    decode 0x1001 = .error (.mustBeZero 1) ∧ ({ worked with inbox := [.issue 0x1001] } : State).err = 0 := by decide

theorem witness_PendingFaultDropsEveryOtherWord :
    (faulted [.issue 0x1000]).err ≠ 0 ∧ (0x1000 : Word) ≠ 0xB000 ∧ (faulted [.issue 0x1000]).inbox = [.issue 0x1000] ∧
    (faulted [.readRegister 4]).inbox = [.readRegister 4] ∧
    (faulted [.writeRegister 7 (cursor 5)]).inbox = [.writeRegister 7 (cursor 5)] ∧
    (faulted [.writeRegister 8 (cursor 5)]).inbox = [.writeRegister 8 (cursor 5)] ∧
    (faulted [.bindSource .empty]).inbox = [.bindSource .empty] := by
  decide

theorem witness_IdleStepKeepsTheState : ({ worked with inbox := [] } : State).inbox = [] := rfl

/-- The first and the last register, and the first number without one. -/
theorem witness_RegisterReadReturnsTheRegister :
    [0, 1, 2, 3, 4, 5, 6, 7, 8, 9].all
      (fun n => ({ worked with inbox := [.readRegister n] } : State).inbox == [.readRegister n]) = true ∧ 8 < 9 := by decide

/-- A state with every register in use that has the invariant of R31. -/
theorem worked_inv : worked.Inv where
  cnt_le := by decide
  padc_le := by decide
  padc_le_cnt := by decide
  err_le := by decide
  srcpos_le := by decide
  unpacked_zero := by decide
  dst_wf := by decide
  dst_lt := fun c hc => lt_of_lt_of_le ((by decide : ∀ c ∈ worked.dst, c.1 + 1 < 8) c hc) eight_le_cursorLimit
  leftover_wf := by decide
  leftover_lt := fun c hc => lt_of_lt_of_le ((by decide : ∀ c ∈ worked.leftover, c.1 + 1 < 8) c hc) eight_le_cursorLimit
theorem witness_RegisterWriteReachesTheTwoCursors :
    [7, 8, 0, 9].all
      (fun n => ({ worked with inbox := [.writeRegister n (cursor 5)] } : State).inbox == [.writeRegister n (cursor 5)]) = true ∧
    0 ≠ 7 ∧ 0 ≠ 8 := by decide

theorem witness_BindSetsTheSourceAndItsCursor :
    ({ worked with inbox := [.bindSource (source "Ma")] } : State).inbox = [.bindSource (source "Ma")] := rfl

/-- A written position, the last one, and the first unwritten one. -/
theorem witness_DestinationReadNeedsAWrittenPosition :
    ({ worked with inbox := [.readDestination 3] } : State).inbox = [.readDestination 3] ∧ worked.dst.read 3 = some 0x75 ∧
    ({ worked with inbox := [.readDestination 4] } : State).inbox = [.readDestination 4] ∧ worked.dst.read 4 = none := by decide

theorem witness_ResetLeavesTheResetValues :
    ({ worked with inbox := [.assertReset, .issue 0x1000] } : State).inbox = .assertReset :: [.issue 0x1000] ∧
    ({ oneByte with inbox := [.resetDuring 0x9000] } : State).inbox = [.resetDuring 0x9000] ∧
    oneByte.srcpos.toNat ≤ oneByte.src.length := by decide

/-- Two entries that are equal because the positions are. -/
theorem witness_AlphabetIsTheStandardOne : symbols.alpha[(63 : Fin 64)] = symbols.alpha[(63 : Fin 64)] := rfl

/-- A code that is in ALPHA, and one that is not. -/
theorem witness_SymbolToValueTable :
    symbols.alpha[(63 : Fin 64)] = 0x2F ∧ ∀ i : Fin 64, symbols.alpha[i] ≠ 0x3D := by decide

theorem witness_ExtractIsShiftAndMask : 3 ≤ 3 ∧ 2 ≤ 2 := by decide
theorem witness_InsertByteReplacesOneField :
    2 ≤ 2 ∧ 23 < 24 ∧ extract (0x4D6100 : Acc) 2 8 = 0 ∧ 0 ≤ 2 ∧ 0 ≠ 2 := by decide
theorem witness_InsertValueReplacesOneField : 3 ≤ 3 ∧ 23 < 24 ∧ 0 ≤ 3 ∧ 0 ≠ 3 := by decide

theorem witness_LookupsAndFieldsAreInverse :
    symToVal 0x2F ≠ 64 ∧ insert8 (insert8 (insert8 0 0 0x4D) 1 0x61) 2 0x6E = (0x4D616E : Acc) ∧
    insert6 (insert6 (insert6 (insert6 0 0 19) 1 22) 2 5) 3 46 = (0x4D616E : Acc) := by decide

theorem witness_SourceReadAdvancesByOne :
    (bound "Man" 4).srcpos.toNat ≤ (bound "Man" 4).src.length ∧ srcAtEnd (bound "Man" 4) = false := by decide

theorem witness_DestinationWriteOrCapacity :
    worked.dstcap.toNat ≤ worked.dstpos.toNat ∧ oneByte.dstpos.toNat < oneByte.dstcap.toNat := by decide

theorem witness_ClraClearsTheGroup : worked.err = 0 := by decide
theorem witness_PackByteCommand : oneByte.err = 0 ∧ oneByte.cnt.toNat < 3 ∧ worked.err = 0 ∧ 3 ≤ worked.cnt.toNat := by decide

theorem witness_PackSymbolCommand :
    worked.err = 0 ∧ worked.cnt.toNat < 4 ∧ fourSymbols.err = 0 ∧ 4 ≤ fourSymbols.cnt.toNat := by decide

/-- CNT 0, CNT 4, CNT 1 with exactly enough room, and with one element less. -/
theorem witness_EmitSymbolsCommand :
    State.reset.err = 0 ∧ State.reset.cnt = 0 ∧ fourSymbols.err = 0 ∧ fourSymbols.cnt = 4 ∧
    oneByte.err = 0 ∧ oneByte.cnt ≠ 0 ∧ oneByte.cnt ≠ 4 ∧ 4 ≤ oneByte.room ∧
    ({ oneByte with dstcap := cursor 3 } : State).err = 0 ∧ ({ oneByte with dstcap := cursor 3 } : State).cnt ≠ 0 ∧
    ({ oneByte with dstcap := cursor 3 } : State).cnt ≠ 4 ∧ ({ oneByte with dstcap := cursor 3 } : State).room < 4 := by decide

/-- CNT 0, and CNT 4 with exactly enough room and with one element less, for either form. -/
theorem witness_EmitBytesCommand :
    State.reset.err = 0 ∧ State.reset.cnt = 0 ∧ fourSymbols.err = 0 ∧ fourSymbols.cnt ≠ 0 ∧
    (if true then 3 - fourSymbols.padc.toNat else 3) ≤ ({ fourSymbols with dstcap := cursor 1 } : State).room ∧
    (if false then 3 - fourSymbols.padc.toNat else 3) ≤ fourSymbols.room ∧
    ({ fourSymbols with dstcap := cursor 0 } : State).room < (if true then 3 - fourSymbols.padc.toNat else 3) ∧
    ({ fourSymbols with dstcap := cursor 2 } : State).room < (if false then 3 - fourSymbols.padc.toNat else 3) := by decide

theorem witness_ClearFaultCommand : decode 0xB000 = .ok .clrf := by decide
theorem witness_SymbolToValueCommand : worked.err = 0 := by decide
theorem witness_ValueToSymbolCommand : worked.err = 0 ∧ (63 : Byte).toNat < 64 ∧ 64 ≤ (64 : Byte).toNat := by decide
theorem witness_ExtractFieldCommand : worked.err = 0 ∧ (2 : BitVec 2).toNat < 3 ∧ (3 : BitVec 2) = 3 := by decide

/-- Exactly enough room, and an empty rest. -/
theorem witness_EncodeCommandWritesTheText :
    ((bound "Man" 4).err = 0 ∧ (bound "Man" 4).srcpos.toNat ≤ (bound "Man" 4).src.length ∧
      4 * ceilDiv (bound "Man" 4).remaining.length 3 ≤ (bound "Man" 4).room ∧ (bound "Man" 4).remaining ≠ []) ∧
    (worked.err = 0 ∧ worked.srcpos.toNat ≤ worked.src.length ∧
      4 * ceilDiv worked.remaining.length 3 ≤ worked.room ∧ worked.remaining = []) := by decide

/-- One element short. -/
theorem witness_EncodeWithoutRoomIsPrecise :
    (bound "Many" 7).err = 0 ∧ (bound "Many" 7).srcpos.toNat ≤ (bound "Many" 7).src.length ∧
    (bound "Many" 7).room < 4 * ceilDiv (bound "Many" 7).remaining.length 3 := by decide

/-- Exactly enough room, and an empty rest. -/
theorem witness_DecodeCommandWritesTheBytes :
    ((bound "TWFuT" 6).err = 0 ∧ (bound "TWFuT" 6).srcpos.toNat ≤ (bound "TWFuT" 6).src.length ∧
      (decodedBytes (bound "TWFuT" 6).remaining).length ≤ (bound "TWFuT" 6).room ∧
      (bound "TWFuT" 6).remaining ≠ []) ∧
    (worked.err = 0 ∧ worked.srcpos.toNat ≤ worked.src.length ∧
      (decodedBytes worked.remaining).length ≤ worked.room ∧ worked.remaining = []) := by decide

/-- One element short. -/
theorem witness_DecodeWithoutRoomIsPrecise :
    (bound "TWFuT" 5).err = 0 ∧ (bound "TWFuT" 5).srcpos.toNat ≤ (bound "TWFuT" 5).src.length ∧
    (bound "TWFuT" 5).room < (decodedBytes (bound "TWFuT" 5).remaining).length := by decide

theorem witness_EncodeLengthLaw :
    (bound "Man" 4).err = 0 ∧ (bound "Man" 4).srcpos = 0 ∧
    4 * ceilDiv (bound "Man" 4).src.length 3 ≤ (bound "Man" 4).room := by decide

/-- An empty source, a multiple of four, and a length that is none. -/
theorem witness_DecodeLengthLaw :
    ((bound "" 0).err = 0 ∧ (bound "" 0).srcpos = 0 ∧ 3 * ceilDiv (bound "" 0).src.length 4 ≤ (bound "" 0).room ∧
      (bound "" 0).src.elements = []) ∧
    ((bound "TQ==" 3).err = 0 ∧ (bound "TQ==" 3).srcpos = 0 ∧
      3 * ceilDiv (bound "TQ==" 3).src.length 4 ≤ (bound "TQ==" 3).room ∧
      (bound "TQ==" 3).src.elements ≠ [] ∧ (bound "TQ==" 3).src.length % 4 = 0) ∧
    ((bound "TQ=" 3).err = 0 ∧ (bound "TQ=" 3).srcpos = 0 ∧
      3 * ceilDiv (bound "TQ=" 3).src.length 4 ≤ (bound "TQ=" 3).room ∧ (bound "TQ=" 3).src.elements ≠ []) := by decide

/-- ENC and EMS answer a next state that has written something; the first and the last symbol of the text. -/
theorem witness_EncoderOutputIsInTheAlphabet :
    after (exec .enc (bound "M" 4)) (fun t => decide ((bound "M" 4).dstpos.toNat ≤ 3 ∧ 3 < t.dstpos.toNat)) = true ∧
    after (exec .ems oneByte) (fun t => decide (oneByte.dstpos.toNat ≤ 3 ∧ 3 < t.dstpos.toNat)) = true ∧
    (bound "M" 4).err = 0 ∧ (bound "M" 4).srcpos = 0 ∧ 4 * ceilDiv (bound "M" 4).src.length 3 ≤ (bound "M" 4).room ∧
    0 < 4 * ceilDiv (bound "M" 4).src.length 3 ∧ 3 < 4 * ceilDiv (bound "M" 4).src.length 3 := by decide

/-- V3 and V6: the second state has the text that the first command writes. -/
theorem witness_DecodeOfEncodeGivesTheSource :
    (bound "M" 4).err = 0 ∧ (bound "M" 4).srcpos = 0 ∧ 4 * ceilDiv (bound "M" 4).src.length 3 ≤ (bound "M" 4).room ∧
    after (exec .enc (bound "M" 4)) (fun t => written t 0 4 == (bound "TQ==" 1).src.elements.map some) = true ∧
    (bound "TQ==" 1).err = 0 ∧ (bound "TQ==" 1).srcpos = 0 ∧ (bound "M" 4).src.length ≤ (bound "TQ==" 1).room := by decide

theorem witness_EncodeEqualsItsGroupCommands :
    (bound "Many" 6).err = 0 ∧ (bound "Many" 6).srcpos.toNat ≤ (bound "Many" 6).src.length := by decide

theorem witness_DecodeEqualsItsGroupCommands :
    (bound "TWFuT" 5).err = 0 ∧ (bound "TWFuT" 5).srcpos.toNat ≤ (bound "TWFuT" 5).src.length ∧
    (bound "TWFuT" 5).remaining.any invalidSymbol = false := by decide

theorem witness_PadCountIsTheTrailingRun : State.reset.err = 0 ∧ (str "T=E=").length ≤ 4 ∧ (str "").length ≤ 4 := by decide

/-- At the end of the source, and before it. -/
theorem witness_StreamCommandsAreTheirLoops :
    worked.srcpos.toNat ≤ worked.src.length ∧ worked.srcpos.toNat = worked.src.length ∧
    (bound "M" 4).srcpos.toNat ≤ (bound "M" 4).src.length ∧ (bound "M" 4).srcpos.toNat < (bound "M" 4).src.length := by decide

/-- A loop that runs to the end of the source. -/
theorem witness_LoopsEndBeforeTheCutOff :
    (bound "Man" 4).srcpos.toNat ≤ (bound "Man" 4).src.length ∧
    (match whileSource encodeGroup (sourceFuel (bound "Man" 4)) (bound "Man" 4) with
      | .running t => srcAtEnd t | _ => false) = true ∧
    (match whileSource decodeGroup (sourceFuel (bound "Man" 4)) (bound "Man" 4) with
      | .running t => srcAtEnd t | _ => false) = true := by decide

/-- Each clause: a dropped word, an illegal word, EMS and EMB without a group and without room. -/
theorem witness_FaultPriorityOrder :
    ((faulted [.issue 0x0000]).inbox = [.issue 0x0000] ∧ (faulted [.issue 0x0000]).err ≠ 0 ∧ (0x0000 : Word) ≠ 0xB000) ∧
    (({ State.reset with inbox := [.issue 0x1001] } : State).inbox = [.issue 0x1001] ∧ State.reset.err = 0 ∧
      decode 0x1001 = .error (.mustBeZero 1)) ∧
    (({ State.reset with inbox := [.issue 0x9000] } : State).inbox = [.issue 0x9000] ∧ State.reset.cnt = 0 ∧
      State.reset.dstcap.toNat ≤ State.reset.dstpos.toNat) ∧
    (({ State.reset with inbox := [.issue 0xA001] } : State).inbox = [.issue 0xA001] ∧
      (0xA001 : Word) = 0xA000 + (BitVec.ofBool true).setWidth 16) := by decide

/-- Both commands, with a fault and without one. -/
theorem witness_StreamCommandsRaiseOnlyCapacity :
    (bound "Man" 3).err = 0 ∧ after (exec .enc (bound "Man" 3)) (fun t => t.err == 4) = true ∧
    after (exec .dec (bound "Man" 3)) (fun t => t.err == 0) = true := by decide

/-- CLRF and reset with a fault pending. -/
theorem witness_PendingFaultStaysUntilCleared :
    (faulted [.issue 0xB000]).err ≠ 0 ∧
    after (step (faulted [.issue 0xB000])) (fun t => t.err != (faulted [.issue 0xB000]).err) = true ∧
    after (step (faulted [.assertReset])) (fun t => t.err != (faulted [.assertReset]).err) = true ∧
    after (step (faulted [.resetDuring 0x1000])) (fun t => t.err != (faulted [.resetDuring 0x1000]).err) = true := by decide

/-- CLRF and reset with the flag set. -/
theorem witness_InvalidFlagIsSticky :
    worked.inv = true ∧ after (step { worked with inbox := [.issue 0xB000] }) (fun t => !t.inv) = true ∧
    after (step { worked with inbox := [.assertReset] }) (fun t => !t.inv) = true ∧
    after (step { worked with inbox := [.resetDuring 0x6000] }) (fun t => !t.inv) = true := by decide

/-- A PK6 and a DEC that set the flag and write INVPOS. -/
theorem witness_InvposIsWrittenWhenInvRises :
    (Instr.pk6 0x21) ≠ .clrf ∧ after (exec (.pk6 0x21) oneByte) (fun t => t.invpos != oneByte.invpos && t.inv != oneByte.inv) = true ∧
    after (exec .dec (bound "T!" 3)) (fun t => t.invpos != (bound "T!" 3).invpos && t.inv != (bound "T!" 3).inv) = true := by
  decide

/-- Each register, changed by a command. -/
theorem witness_RegistersChangeOnlyByTheirCommands :
    after (exec (.pk6 0x3D) oneByte) (fun t => t.cnt != oneByte.cnt && t.padc != oneByte.padc) = true ∧
    after (exec (.pk8 0x61) oneByte) (fun t => t.acc != oneByte.acc) = true ∧
    after (exec (.s2v 0x3D) oneByte) (fun t => t.res != oneByte.res) = true ∧
    after (exec (.pk6 0x21) oneByte) (fun t => t.inv != oneByte.inv && t.invpos != oneByte.invpos) = true ∧
    after (exec .enc (bound "M" 4)) (fun t => t.srcpos != 0 && t.dstpos != 0) = true := by decide

/-- EMS writes four elements up to the capacity; a position above them, and CLRA, which writes none. -/
theorem witness_DestinationChangesOnlyBelowTheCapacity :
    after (exec .ems oneByte) (fun t => t.dst != oneByte.dst &&
      decide (oneByte.dstpos.toNat < t.dstpos.toNat ∧ 3 < t.dstpos.toNat ∧ t.dstpos.toNat ≤ 4)) = true ∧
    after (exec .clra oneByte) (fun t => t.dst == oneByte.dst) = true := by decide

theorem witness_CommandsDoNotReadTheDestination :
    after (exec .ems oneByte) (fun _ => true) = true ∧ ({ oneByte with dst := worked.dst } : State).dst ≠ oneByte.dst := by decide

theorem witness_CommandsAlwaysEndInANextState : worked.srcpos.toNat ≤ worked.src.length := by decide

theorem witness_StepKeepsTheInvariant : worked.Inv ∧ after (step worked) (fun t => t.acc == 0 && t.cnt == 0) = true :=
  ⟨worked_inv, by decide⟩

/-- A state that a run reaches: one action of the host and its step. -/
theorem witness_ReachableStatesSatisfyTheInvariant :
    Reachable { State.reset with acc := 0x4D0000, cnt := 1 } :=
  .step (.post (.issue 0x704D) .reset) (by rfl)

end Sys2Proof.Tests
end

/-!
PROOFS of the statements about the state (10_state.md): the invariant, register reads, reset, the flags and the frames.
The lemmas come first, in the order of the definitions they speak of.
-/

section
namespace Sys2Proof.Machine

/-! ### Properties that pseudocode keeps -/

/-- From a state with `P` the pseudocode `body` ends, normally or by a raise, in a state with `P` only. -/
def Keeps (P : State → Prop) (body : State → Flow) : Prop :=
  ∀ ⦃s t : State⦄, P s → (body s).outcome = .next t → P t

namespace Keeps

variable {P : State → Prop} {body k : State → Flow}

theorem of_running (h : Keeps P body) {s t : State} (hs : P s) (e : body s = .running t) : P t :=
  h hs (outcome_eq_next.2 (.inl e))

theorem of_ended (h : Keeps P body) {s t : State} (hs : P s) (e : body s = .ended t) : P t :=
  h hs (outcome_eq_next.2 (.inr e))

theorem andThen (hb : Keeps P body) (hk : Keeps P k) : Keeps P fun s => (body s).andThen k := by
  intro s t hs e
  cases hf : body s with
  | running u => exact hk (hb.of_running hs hf) (by simpa [hf] using e)
  | ended u => exact hb hs (by simpa [hf] using e)
  | stuck f => simp [hf] at e

theorem forTimes (h : Keeps P body) (n : Nat) : Keeps P (forTimes n body) := by
  intro s t hs e
  obtain ⟨hr, he⟩ := forTimes_keeps (fun _ _ => h.of_running) (fun _ _ => h.of_ended) n s hs
  exact (outcome_eq_next.1 e).elim (hr t) (he t)

theorem whileSource (h : Keeps P body) (fuel : Nat) : Keeps P (whileSource body fuel) := by
  intro s t hs e
  obtain ⟨hr, he⟩ := whileSource_keeps (fun _ _ => h.of_running) (fun _ _ => h.of_ended) fuel s hs
  exact (outcome_eq_next.1 e).elim (hr t) (he t)

/-- Reading an element is safe where the read before the end and the packing are (R41, R42). -/
theorem takeElement {pack : Byte → Cursor → State → Flow}
    (hread : ∀ s : State, P s → s.srcpos.toNat < s.src.length → P { s with srcpos := forward s.srcpos 1 })
    (hpack : ∀ b pos, Keeps P (pack b pos)) : Keeps P (takeElement pack) := by
  intro s t hs e
  rcases lt_trichotomy s.srcpos.toNat s.src.length with h | h | h
  · rw [takeElement_of_read (List.getElem?_eq_getElem h)] at e
    exact hpack _ _ (hread s hs h) e
  · rw [takeElement_atEnd h] at e
    cases e; exact hs
  · rw [takeElement_of_past h] at e
    cases e

end Keeps

/-! ### What one command can do -/

/-- PK8 from count 3 on (R81). -/
theorem packByte_of_full {b : Byte} {s : State} (h : 3 ≤ s.cnt.toNat) : packByte b s = .ended (s.setErr 3) := if_pos h

/-- PK6 from count 4 on (R100). -/
theorem packSymbol_of_full {c : Byte} {pos : Cursor} {s : State} (h : 4 ≤ s.cnt.toNat) :
    packSymbol c pos s = .ended (s.setErr 3) := if_pos h

/-- Everything PK8 can do: pack, or `GroupState` from count 3 on (R81). -/
theorem packByte_cases (b : Byte) (s : State) :
    (s.cnt.toNat < 3 ∧ packByte b s = .running { s with acc := insert8 s.acc s.cnt.toNat b, cnt := s.cnt + 1 }) ∨
    (3 ≤ s.cnt.toNat ∧ packByte b s = .ended (s.setErr 3)) :=
  (Nat.lt_or_ge s.cnt.toNat 3).imp (fun h => ⟨h, packByte_of_lt h⟩) fun h => ⟨h, packByte_of_full h⟩

/-- Everything PK6 can do: pack with the pad count and the flags, or `GroupState` from count 4 on (R100). -/
theorem packSymbol_cases (c : Byte) (pos : Cursor) (s : State) :
    (s.cnt.toNat < 4 ∧ packSymbol c pos s = .running { s with
      padc := padAfter c s.padc, status := statusAfter c s.status, invpos := invposAfter c pos s.inv s.invpos
      acc := insert6 s.acc s.cnt.toNat (packedValue c), cnt := s.cnt + 1 }) ∨
    (4 ≤ s.cnt.toNat ∧ packSymbol c pos s = .ended (s.setErr 3)) :=
  (Nat.lt_or_ge s.cnt.toNat 4).imp (fun h => ⟨h, packSymbol_of_lt h⟩) fun h => ⟨h, packSymbol_of_full h⟩

/-- V2S writes RES, or raises `Range`; the operand alone decides which (R124). -/
theorem execV2s_cases (v : Byte) :
    (∀ s, execV2s v s = .next { s with res := valToSym (v.setWidth 6) }) ∨ ∀ s, execV2s v s = .next (s.setErr 2) := by
  rcases Nat.lt_or_ge v.toNat 64 with h | h
  · exact .inl fun _ => if_neg (Nat.not_le_of_lt h)
  · exact .inr fun _ => if_pos h

/-- XBIT writes a function of ACC to RES, or raises `Range`; the operands alone decide which (R125). -/
theorem execXbit_cases (w : FieldWidth) (idx : BitVec 2) :
    (∃ field : Acc → Byte, ∀ s, execXbit w idx s = .next { s with res := field s.acc }) ∨
    ∀ s, execXbit w idx s = .next (s.setErr 2) := by
  cases w with
  | six => exact .inl ⟨fun a => (extract a idx.toNat 6).setWidth 8, fun _ => rfl⟩
  | eight =>
    by_cases h : idx = 3
    · exact .inr fun _ => if_pos h
    · exact .inl ⟨fun a => extract a idx.toNat 8, fun _ => if_neg h⟩

/-- Where SRCPOS is at most SRCLEN every command answers a next state (R144; log 9). -/
theorem exec_isNext (i : Instr) {s : State} (h : s.srcpos.toNat ≤ s.src.length) : ∃ t, exec i s = .next t := by
  cases i with
  | enc => exact (execEnc_takes h).imp fun _ ht => ht.1
  | dec => exact (execDec_takes h).imp fun _ ht => ht.1
  | s2v c => exact ⟨_, rfl⟩
  | v2s v => exact (execV2s_cases v).elim (fun he => ⟨_, he s⟩) fun he => ⟨_, he s⟩
  | xbit w idx => exact (execXbit_cases w idx).elim (fun ⟨_, he⟩ => ⟨_, he s⟩) fun he => ⟨_, he s⟩
  | clra => exact ⟨_, rfl⟩
  | pk8 b => rcases packByte_cases b s with ⟨_, he⟩ | ⟨_, he⟩ <;> exact ⟨_, congrArg Flow.outcome he⟩
  | pk6 c => rcases packSymbol_cases c _ s with ⟨_, he⟩ | ⟨_, he⟩ <;> exact ⟨_, congrArg Flow.outcome he⟩
  | ems =>
    rcases emitSymbols_cases s with ⟨_, he⟩ | ⟨_, _, he⟩ | ⟨_, _, he⟩ <;> exact ⟨_, congrArg Flow.outcome he⟩
  | emb fin =>
    rcases emitBytes_cases fin s with ⟨_, he⟩ | ⟨_, _, he⟩ | ⟨_, _, he⟩ <;> exact ⟨_, congrArg Flow.outcome he⟩
  | clrf => exact ⟨_, rfl⟩

/-- Where the body is stuck past the end of the source, so is the loop (log 9). -/
theorem whileSource_of_past {body : State → Flow} {s : State} {f : Fault} (h : s.src.length < s.srcpos.toNat)
    (hb : body s = .stuck f) : whileSource body (sourceFuel s) s = .stuck f := by
  rw [sourceFuel, whileSource_of_more (Nat.ne_of_gt h), hb, andThen_stuck]

/-- ENC answers a next state only where SRCPOS is at most SRCLEN (R42; log 9). -/
theorem srcpos_le_of_execEnc {s t : State} (e : execEnc s = .next t) : s.srcpos.toNat ≤ s.src.length := by
  by_contra hlt
  have hb : encodeGroup s = .stuck .sourceOverrun := by
    rw [encodeGroup, forTimes, takeElement_of_past (s := clearGroup s) (Nat.lt_of_not_le hlt)]; rfl
  rw [execEnc, whileSource_of_past (Nat.lt_of_not_le hlt) hb] at e
  cases e

/-- DEC answers a next state only where SRCPOS is at most SRCLEN (R42; log 9). -/
theorem srcpos_le_of_execDec {s t : State} (e : execDec s = .next t) : s.srcpos.toNat ≤ s.src.length := by
  by_contra hlt
  have hb : decodeGroup s = .stuck .sourceOverrun := by
    rw [decodeGroup, forTimes, takeElement_of_past (s := clearGroup s) (Nat.lt_of_not_le hlt)]; rfl
  rw [execDec, whileSource_of_past (Nat.lt_of_not_le hlt) hb] at e
  cases e

/-- The elements that remain are fewer than the tests a loop makes. -/
theorem remaining_lt_sourceFuel (s : State) : s.remaining.length < sourceFuel s := by
  simp [State.remaining, sourceFuel]

/-- The next states of DEC, in closed form (R102, R154). -/
theorem execDec_eq_next {s t : State} (e : execDec s = .next t) :
    t = decodeFits s s.remaining ∨ t = decodeShort s s.remaining := by
  obtain ⟨fits, short⟩ := decodeLoop_eq _ s _ rfl (srcpos_le_of_execDec e) (remaining_lt_sourceFuel s)
  rcases Nat.lt_or_ge s.room (decodedBytes s.remaining).length with hr | hr
  · cases (congrArg Flow.outcome (short hr)).symm.trans e; exact .inr rfl
  · cases (congrArg Flow.outcome (fits hr)).symm.trans e; exact .inl rfl

/-! ### What an issued word and a step can do -/

/-- 0xB000 is the only word of CLRF (R64, R140). -/
theorem eq_clrfWord_of_decode {w : Word} (h : decode w = .ok .clrf) : w = clrfWord := by
  unfold decode at h
  split at h
  · rename_i r hr
    have hmatch : rowMatches w r = true := List.find?_some hr
    have hmem := List.mem_of_find?_eq_some hr
    have hop : r.operands w = .clrf := by simpa using h
    simp only [opcodeRows, List.mem_cons, List.not_mem_nil, or_false] at hmem
    rcases hmem with rfl | rfl | rfl | rfl | rfl | rfl | rfl | rfl | rfl | rfl | rfl <;> cases hop
    have hall : w &&& BitVec.allOnes 16 = clrfWord := beq_iff_eq.1 hmatch
    rwa [BitVec.and_allOnes] at hall
  · cases h

/-- An issued 0xB000 always runs CLRF (R160). -/
theorem issueWord_clrfWord (s : State) : issueWord clrfWord s = .next (acknowledge s) := by
  rw [issueWord, dropped_clrf]; rfl

/-- The next states of an issued word: the same one when it is dropped, that of its command, or the raise of `IllegalCommand`. -/
theorem issueWord_eq_next {w : Word} {s t : State} (e : issueWord w s = .next t) :
    t = s ∨ (∃ i, decode w = .ok i ∧ exec i s = .next t) ∨ t = s.setErr 1 := by
  rcases issueWord_cases w s with ⟨_, h⟩ | ⟨_, i, hi, h⟩ | ⟨_, _, h⟩ <;> rw [h] at e
  · cases e; exact .inl rfl
  · exact .inr (.inl ⟨i, hi, e⟩)
  · cases e; exact .inr (.inr rfl)

/-- A reset during a command is a reset after what the command got to (R180). -/
theorem resetDuring_eq_next {w : Word} {s t : State} (e : resetDuring w s = .next t) :
    ∃ u, issueWord w (stopWritesAfter (Config.writesBeforeReset s.abandoned) s) = .next u ∧
      t = { resetBlock u with abandoned := s.abandoned + 1 } := by
  unfold resetDuring at e
  split at e <;> cases e
  exact ⟨_, ‹_›, rfl⟩

/-- STATUS changes only by an issued word or a reset, and a reset leaves 0 in it (R20, R180). -/
theorem step_status {s t : State} (e : step s = .next t) :
    t.status = s.status ∨
    (∃ w rest, s.inbox = .issue w :: rest ∧ issueWord w { s with inbox := rest } = .next t) ∨
    (t.status = 0 ∧ ∃ rest, s.inbox = .assertReset :: rest ∨ ∃ w, s.inbox = .resetDuring w :: rest) := by
  rcases step_cases s with ⟨_, h⟩ | ⟨a, rest, hin, h⟩ <;> rw [h] at e
  · cases e; exact .inl rfl
  cases a with
  | issue w => exact .inr (.inl ⟨w, rest, hin, e⟩)
  | readRegister n => cases e; exact .inl rfl
  | writeRegister n v =>
    simp only [perform, writeRegister] at e
    split at e <;> cases e <;> exact .inl rfl
  | bindSource src => cases e; exact .inl rfl
  | readDestination p =>
    simp only [perform, readDestination] at e
    split at e <;> cases e
    exact .inl rfl
  | assertReset => cases e; exact .inr (.inr ⟨rfl, rest, .inl hin⟩)
  | resetDuring w =>
    obtain ⟨u, _, rfl⟩ := resetDuring_eq_next e
    exact .inr (.inr ⟨rfl, rest, .inr ⟨w, hin⟩⟩)

end Sys2Proof.Machine
end

section
namespace Sys2Proof.Machine

/-! ### The invariant (10_state.md R31) -/

/-- The low `n` bits of a number are 0 exactly when each of them is. -/
theorem toNat_mod_two_pow_eq_zero_iff {w : Nat} (a : BitVec w) (n : Nat) :
    a.toNat % 2 ^ n = 0 ↔ ∀ k < n, a.getLsbD k = false := by
  have hbit (k : Nat) : (a.toNat % 2 ^ n).testBit k = (decide (k < n) && a.getLsbD k) := Nat.testBit_mod_two_pow _ _ _
  constructor
  · intro h k hk
    simpa [h, hk] using (hbit k).symm
  · intro h
    refine Nat.eq_of_testBit_eq fun k => ?_
    rw [hbit, Nat.zero_testBit, Bool.and_eq_false_imp]
    exact fun hk => h k (of_decide_eq_true hk)

/-- Replacing a field leaves the bits below it alone (R84, R105). -/
theorem getLsbD_replace_below (a mask v : Acc) {m k : Nat} (h : k < m) :
    ((a &&& ~~~ (mask <<< m)) ||| (v <<< m)).getLsbD k = a.getLsbD k := by
  by_cases hk : k < 24
  · simp [h, hk]
  · simp [BitVec.getLsbD_of_ge _ _ (Nat.le_of_not_lt hk)]

/-- The bits of ACC that the packed fields cannot reach are 0 (R31, last sentence; log 12). -/
def unpackedZero (a : Acc) (n : Nat) : Prop := a.toNat % 2 ^ (24 - 8 * n) = 0

theorem unpackedZero_insert8 {a : Acc} {n : Nat} (b : Byte) (hn : n < 3) (h : unpackedZero a n) :
    unpackedZero (insert8 a n b) (n + 1) := by
  rw [unpackedZero, toNat_mod_two_pow_eq_zero_iff] at h ⊢
  intro k hk
  rw [insert8, getLsbD_replace_below _ _ _ (by omega)]
  exact h k (by omega)

theorem unpackedZero_insert6 {a : Acc} {n : Nat} (v : Value6) (hn : n < 4) (h : unpackedZero a n) :
    unpackedZero (insert6 a n v) (n + 1) := by
  rw [unpackedZero, toNat_mod_two_pow_eq_zero_iff] at h ⊢
  intro k hk
  rw [insert6, getLsbD_replace_below _ _ _ (by omega)]
  exact h k (by omega)

/-- CNT does not wrap in a pack (R12). -/
theorem toNat_cnt_succ {c : BitVec 3} (h : c.toNat < 4) : (c + 1).toNat = c.toNat + 1 := by
  rw [BitVec.toNat_add]
  exact Nat.mod_eq_of_lt (by simp; omega)

theorem BlockFault.code_le (f : BlockFault) : f.code.toNat ≤ 4 := by cases f <;> decide

namespace State.Inv

variable {s : State}

/-- The code of a fault keeps the invariant. -/
theorem setErr (h : s.Inv) {e : BitVec 4} (he : e.toNat ≤ 4) : (s.setErr e).Inv :=
  { h with err_le := by simpa using he }

/-- The model's own list of actions has no part in the invariant (log 3). -/
theorem withInbox (h : s.Inv) (actions : List HostAction) : ({ s with inbox := actions } : State).Inv := { h with }

theorem acknowledge (h : s.Inv) : (Machine.acknowledge s).Inv := { h with err_le := by simp }

theorem clearGroup (h : s.Inv) : (Machine.clearGroup s).Inv :=
  { h with
    cnt_le := Nat.zero_le _
    padc_le := Nat.zero_le _
    padc_le_cnt := Nat.le_refl _
    unpacked_zero := Nat.zero_mod _ }

/-- A read before the end of the source leaves SRCPOS at most at SRCLEN (R17). -/
theorem advanceSource (h : s.Inv) (hlt : s.srcpos.toNat < s.src.length) :
    ({ s with srcpos := forward s.srcpos 1 } : State).Inv :=
  { h with srcpos_le := by rw [toNat_forward (Nat.sub_pos_of_lt hlt) s.src.fits]; exact hlt }

/-- A position below DSTCAP is below the last number a cursor holds (R29). -/
theorem writeElement (h : s.Inv) (hlt : s.dstpos.toNat < s.dstcap.toNat) (v : Byte) :
    ({ s with dst := s.dst.write s.dstpos.toNat v, dstpos := forward s.dstpos 1 } : State).Inv :=
  { h with
    dst_wf := Memory.write_wf h.dst_wf _ _
    dst_lt := by
      intro c hc
      rcases Memory.mem_write hc with rfl | hc
      · exact Nat.lt_of_le_of_lt hlt s.dstcap.isLt
      · exact h.dst_lt c hc }

theorem packByte (h : s.Inv) (hlt : s.cnt.toNat < 3) (b : Byte) :
    ({ s with acc := insert8 s.acc s.cnt.toNat b, cnt := s.cnt + 1 } : State).Inv := by
  have hcnt : (s.cnt + 1).toNat = s.cnt.toNat + 1 := toNat_cnt_succ (by omega)
  exact { h with
    cnt_le := by simp only [hcnt]; omega
    padc_le_cnt := by simp only [hcnt]; exact Nat.le_succ_of_le h.padc_le_cnt
    unpacked_zero := by simp only [hcnt]; exact unpackedZero_insert8 b hlt h.unpacked_zero }

theorem packSymbol (h : s.Inv) (hlt : s.cnt.toNat < 4) (c : Byte) (invpos : Cursor) :
    ({ s with
        padc := padAfter c s.padc, status := statusAfter c s.status, invpos := invpos
        acc := insert6 s.acc s.cnt.toNat (packedValue c), cnt := s.cnt + 1 } : State).Inv := by
  have hcnt : (s.cnt + 1).toNat = s.cnt.toNat + 1 := toNat_cnt_succ hlt
  have hpad := padAfter_toNat c s.padc
  have hold := h.padc_le_cnt
  exact { h with
    cnt_le := by simp only [hcnt]; omega
    padc_le := by simp only [hpad]; split <;> omega
    padc_le_cnt := by simp only [hcnt, hpad]; split <;> omega
    err_le := (congrArg BitVec.toNat (statusAfter_err c s.status)).trans_le h.err_le
    unpacked_zero := by simp only [hcnt]; exact unpackedZero_insert6 _ hlt h.unpacked_zero }

/-- Reset leaves in `leftover` what stood in DST before (R180). -/
theorem resetBlock (h : s.Inv) : (Machine.resetBlock s).Inv where
  cnt_le := Nat.zero_le _
  padc_le := Nat.zero_le _
  padc_le_cnt := Nat.le_refl _
  err_le := Nat.zero_le _
  srcpos_le := Nat.le_refl _
  unpacked_zero := Nat.zero_mod _
  dst_wf := Memory.reset_wf
  dst_lt := by intro c hc; cases hc
  leftover_wf := Memory.overlay_wf _ h.leftover_wf
  leftover_lt := fun c hc => (Memory.mem_overlay hc).elim (h.dst_lt c) (h.leftover_lt c)

/-- The invariant says nothing of DSTCAP. -/
theorem stopWritesAfter (h : s.Inv) (n : Nat) : (Machine.stopWritesAfter n s).Inv := { h with }

end State.Inv

theorem packByte_keepsInv (b : Byte) : Keeps State.Inv (packByte b) := by
  intro s t h e
  rcases packByte_cases b s with ⟨hlt, he⟩ | ⟨_, he⟩ <;> rw [he] at e <;> cases e
  · exact h.packByte hlt b
  · exact h.setErr (by decide)

theorem packSymbol_keepsInv (c : Byte) (pos : Cursor) : Keeps State.Inv (packSymbol c pos) := by
  intro s t h e
  rcases packSymbol_cases c pos s with ⟨hlt, he⟩ | ⟨_, he⟩ <;> rw [he] at e <;> cases e
  · exact h.packSymbol hlt c _
  · exact h.setErr (by decide)

theorem dstWriteAll_keepsInv : ∀ vs : List Byte, Keeps State.Inv (dstWriteAll vs)
  | [] => fun _ _ h e => by cases e; exact h
  | v :: vs => by
    have hone : Keeps State.Inv (dstWrite v) := by
      intro s t h e
      rcases dstWrite_cases v s with ⟨hlt, he⟩ | ⟨_, he⟩ <;> rw [he] at e <;> cases e
      · exact h.writeElement hlt v
      · exact h.setErr (by decide)
    exact hone.andThen (dstWriteAll_keepsInv vs)

theorem emitSymbols_keepsInv : Keeps State.Inv emitSymbols := by
  intro s t h e
  unfold emitSymbols at e
  split at e
  · cases e; exact h.setErr (BlockFault.code_le _)
  · exact dstWriteAll_keepsInv _ h e

theorem emitBytes_keepsInv (fin : Bool) : Keeps State.Inv (emitBytes fin) := by
  intro s t h e
  unfold emitBytes at e
  split at e
  · cases e; exact h.setErr (BlockFault.code_le _)
  · exact dstWriteAll_keepsInv _ h e

theorem encodeGroup_keepsInv : Keeps State.Inv encodeGroup := by
  have htake := Keeps.takeElement (fun _ => State.Inv.advanceSource) fun b _ => packByte_keepsInv b
  exact fun s t h e => (htake.forTimes 3).andThen emitSymbols_keepsInv h.clearGroup e

theorem decodeGroup_keepsInv : Keeps State.Inv decodeGroup := by
  have htake := Keeps.takeElement (fun _ => State.Inv.advanceSource) packSymbol_keepsInv
  have hemit : Keeps State.Inv fun t => emitBytes (srcAtEnd t) t := fun s t h e => emitBytes_keepsInv _ h e
  exact fun s t h e => (htake.forTimes 4).andThen hemit h.clearGroup e

/-- Every command keeps the invariant. -/
theorem exec_keepsInv {i : Instr} {s t : State} (h : s.Inv) (e : exec i s = .next t) : t.Inv := by
  cases i with
  | enc => exact encodeGroup_keepsInv.whileSource _ h e
  | dec => exact decodeGroup_keepsInv.whileSource _ h e
  | s2v c => cases e; exact { h with }
  | v2s v =>
    rcases execV2s_cases v with he | he <;> cases (he s).symm.trans e
    · exact { h with }
    · exact h.setErr (by decide)
  | xbit w idx =>
    rcases execXbit_cases w idx with ⟨_, he⟩ | he <;> cases (he s).symm.trans e
    · exact { h with }
    · exact h.setErr (by decide)
  | clra => cases e; exact h.clearGroup
  | pk8 b => exact packByte_keepsInv b h e
  | pk6 c => exact packSymbol_keepsInv c _ h e
  | ems => exact emitSymbols_keepsInv h e
  | emb fin => exact emitBytes_keepsInv fin h e
  | clrf => cases e; exact h.acknowledge

theorem issueWord_keepsInv {w : Word} {s t : State} (h : s.Inv) (e : issueWord w s = .next t) : t.Inv := by
  rcases issueWord_eq_next e with rfl | ⟨i, _, hi⟩ | rfl
  · exact h
  · exact exec_keepsInv h hi
  · exact h.setErr (by decide)

theorem writeRegister_keepsInv {s : State} (h : s.Inv) (n : Nat) (v : Cursor) : (writeRegister n v s).Inv := by
  unfold writeRegister
  split
  · exact { h with }
  · exact { h with }
  · exact h

/-- Every action of the host keeps the invariant. -/
theorem perform_keepsInv {a : HostAction} {s t : State} (h : s.Inv) (e : perform a s = .next t) : t.Inv := by
  cases a with
  | issue w => exact issueWord_keepsInv h e
  | readRegister n => cases e; exact { h with }
  | writeRegister n v => cases e; exact writeRegister_keepsInv h n v
  | bindSource src => cases e; exact { h with srcpos_le := Nat.zero_le _ }
  | readDestination p =>
    simp only [perform, readDestination] at e
    split at e <;> cases e
    exact { h with }
  | assertReset => cases e; exact h.resetBlock
  | resetDuring w =>
    obtain ⟨u, hu, rfl⟩ := resetDuring_eq_next e
    have hu' : u.Inv := issueWord_keepsInv (h.stopWritesAfter _) hu
    exact { hu'.resetBlock with }

/-- Settles O59: each operation of the pseudocode keeps the invariant, so the loops, the commands and the host's actions do. -/
theorem stepKeepsTheInvariant : Obligations.StepKeepsTheInvariant := by
  intro s t h e
  rcases step_cases s with ⟨_, hs⟩ | ⟨a, rest, _, hs⟩ <;> rw [hs] at e
  · cases e; exact h
  · exact perform_keepsInv (h.withInbox rest) e

/-- Settles O58: every register is 0 after reset and nothing is listed as written. -/
theorem resetSatisfiesTheInvariant : Obligations.ResetSatisfiesTheInvariant where
  cnt_le := Nat.zero_le _
  padc_le := Nat.zero_le _
  padc_le_cnt := Nat.le_refl _
  err_le := Nat.zero_le _
  srcpos_le := Nat.le_refl _
  unpacked_zero := Nat.zero_mod _
  dst_wf := Memory.reset_wf
  dst_lt := by intro c hc; cases hc
  leftover_wf := List.Pairwise.nil
  leftover_lt := by intro c hc; cases hc

/-- Settles O60, by induction on the run: O58 at reset, O59 for a step; a posted action is no part of the invariant. -/
theorem reachableStatesSatisfyTheInvariant : Obligations.ReachableStatesSatisfyTheInvariant := by
  intro s hr
  induction hr with
  | reset => exact resetSatisfiesTheInvariant
  | post a _ ih => exact ih.withInbox _
  | step _ next ih => exact stepKeepsTheInvariant _ _ ih next

end Sys2Proof.Machine
end

section
namespace Sys2Proof.Machine

/-! ### The frames of the commands and the flags (10_state.md R22 to R24) -/

/-- `t` is `s` but for the registers that the command may change by the last column of R24's table, and STATUS.ERR. -/
def framed (i : Instr) (s t : State) : Prop :=
  match i with
  | .enc => ∃ acc cnt padc srcpos dst dstpos e, t = { s with
      acc := acc, cnt := cnt, padc := padc, srcpos := srcpos, dst := dst, dstpos := dstpos, status := statusWord s.inv e }
  | .dec => ∃ acc cnt padc srcpos dst dstpos status invpos, t = { s with
      acc := acc, cnt := cnt, padc := padc, srcpos := srcpos, dst := dst, dstpos := dstpos, status := status, invpos := invpos }
  | .s2v _ | .v2s _ | .xbit _ _ => ∃ res e, t = { s with res := res, status := statusWord s.inv e }
  | .clra => ∃ acc cnt padc, t = { s with acc := acc, cnt := cnt, padc := padc }
  | .pk8 _ => ∃ acc cnt e, t = { s with acc := acc, cnt := cnt, status := statusWord s.inv e }
  | .pk6 _ => ∃ acc cnt padc status invpos, t = { s with
      acc := acc, cnt := cnt, padc := padc, status := status, invpos := invpos }
  | .ems | .emb _ => ∃ dst dstpos e, t = { s with dst := dst, dstpos := dstpos, status := statusWord s.inv e }
  | .clrf => ∃ status invpos, t = { s with status := status, invpos := invpos }

/-- The flags of `t` are those of `s`, or INV has risen, and only then INVPOS may be new (R22, R23). -/
def flagsRise (s t : State) : Prop :=
  (t.invpos = s.invpos ∧ t.inv = s.inv) ∨ (s.inv = false ∧ t.inv = true)

theorem execEnc_framed {s t : State} (e : execEnc s = .next t) : framed .enc s t := by
  obtain ⟨fits, short⟩ := encodeLoop_eq _ s (srcpos_le_of_execEnc e) (remaining_lt_sourceFuel s)
  rcases Nat.lt_or_ge s.room (4 * ceilDiv s.remaining.length 3) with hr | hr
  · cases (congrArg Flow.outcome (short hr)).symm.trans e
    exact ⟨_, _, _, _, _, _, 4, rfl⟩
  · cases (congrArg Flow.outcome (fits hr)).symm.trans e
    exact ⟨_, _, _, _, _, _, s.err, by rw [statusWord_fields]⟩

theorem execDec_framed {s t : State} (e : execDec s = .next t) : framed .dec s t := by
  rcases execDec_eq_next e with rfl | rfl
  · unfold decodeFits
    split
    · exact ⟨_, _, _, _, _, _, _, _, rfl⟩
    · exact ⟨_, _, _, _, _, _, _, _, rfl⟩
  · exact ⟨_, _, _, _, _, _, _, _, rfl⟩

/-- Every command keeps to its frame (R24). -/
theorem exec_framed {i : Instr} {s t : State} (e : exec i s = .next t) : framed i s t := by
  cases i with
  | enc => exact execEnc_framed e
  | dec => exact execDec_framed e
  | s2v c => cases e; exact ⟨_, s.err, by rw [statusWord_fields]⟩
  | v2s v =>
    rcases execV2s_cases v with he | he <;> cases (he s).symm.trans e
    · exact ⟨_, s.err, by rw [statusWord_fields]⟩
    · exact ⟨_, 2, rfl⟩
  | xbit w idx =>
    rcases execXbit_cases w idx with ⟨_, he⟩ | he <;> cases (he s).symm.trans e
    · exact ⟨_, s.err, by rw [statusWord_fields]⟩
    · exact ⟨_, 2, rfl⟩
  | clra => cases e; exact ⟨_, _, _, rfl⟩
  | pk8 b =>
    rcases packByte_cases b s with ⟨_, he⟩ | ⟨_, he⟩ <;> cases (congrArg Flow.outcome he).symm.trans e
    · exact ⟨_, _, s.err, by rw [statusWord_fields]⟩
    · exact ⟨_, _, 3, rfl⟩
  | pk6 c =>
    rcases packSymbol_cases c _ s with ⟨_, he⟩ | ⟨_, he⟩ <;> cases (congrArg Flow.outcome he).symm.trans e
    · exact ⟨_, _, _, _, _, rfl⟩
    · exact ⟨_, _, _, _, _, rfl⟩
  | ems =>
    rcases emitSymbols_cases s with ⟨_, he⟩ | ⟨_, _, he⟩ | ⟨_, _, he⟩ <;>
      cases (congrArg Flow.outcome he).symm.trans e
    · exact ⟨_, _, 3, rfl⟩
    · exact ⟨_, _, s.err, by rw [statusWord_fields]⟩
    · exact ⟨_, _, 4, rfl⟩
  | emb fin =>
    rcases emitBytes_cases fin s with ⟨_, he⟩ | ⟨_, _, he⟩ | ⟨_, _, he⟩ <;>
      cases (congrArg Flow.outcome he).symm.trans e
    · exact ⟨_, _, 3, rfl⟩
    · exact ⟨_, _, s.err, by rw [statusWord_fields]⟩
    · exact ⟨_, _, 4, rfl⟩
  | clrf => cases e; exact ⟨_, _, rfl⟩

/-- After the lookups of a list the flags are as before, or INV has risen (R22, R23). -/
theorem flagsAll_rise (cs : List Byte) (p : Cursor) (w : BitVec 5) (q : Cursor) :
    (invposAll cs p w q = q ∧ (statusAll cs w).getLsbD 4 = w.getLsbD 4) ∨
    (w.getLsbD 4 = false ∧ (statusAll cs w).getLsbD 4 = true) := by
  induction cs generalizing p w q with
  | nil => exact .inl ⟨rfl, rfl⟩
  | cons c cs ih =>
    have hstatus : statusAll (c :: cs) w = statusAll cs (statusAfter c w) := rfl
    have htail := ih (forward p 1) (statusAfter c w) (invposAfter c p (w.getLsbD 4) q)
    rw [statusAfter_inv] at htail
    rw [invposAll, hstatus]
    unfold invposAfter at htail ⊢
    generalize w.getLsbD 4 = inv at htail ⊢
    generalize lookupFails c = fails at htail ⊢
    cases inv with
    | true => simpa using htail
    | false =>
      cases fails with
      | true => exact .inr ⟨rfl, htail.elim And.right And.right⟩
      | false => simpa using htail

theorem execDec_flagsRise {s t : State} (e : execDec s = .next t) : flagsRise s t := by
  rcases execDec_eq_next e with rfl | rfl
  · unfold decodeFits
    split
    · exact .inl ⟨rfl, rfl⟩
    · exact flagsAll_rise _ _ _ _
  · unfold flagsRise decodeShort
    rw [State.setErr_invpos, State.setErr_inv]
    exact flagsAll_rise _ _ _ _

theorem execPk6_flagsRise {c : Byte} {s t : State} (e : execPk6 c s = .next t) : flagsRise s t := by
  rcases packSymbol_cases c _ s with ⟨_, he⟩ | ⟨_, he⟩ <;> cases (congrArg Flow.outcome he).symm.trans e
  · exact flagsAll_rise [c] _ _ _
  · exact .inl ⟨rfl, statusWord_inv _ _⟩

/-- Settles O54: each command's frame read off for each register. -/
theorem registersChangeOnlyByTheirCommands : Obligations.RegistersChangeOnlyByTheirCommands := by
  intro i s t e
  have hf := exec_framed e
  cases i with
  | enc => obtain ⟨_, _, _, _, _, _, _, rfl⟩ := hf; simp [State.inv, statusWord_inv, -BitVec.getLsbD_eq_getElem]
  | dec => obtain ⟨_, _, _, _, _, _, _, _, rfl⟩ := hf; simp
  | s2v c => obtain ⟨_, _, rfl⟩ := hf; simp [State.inv, statusWord_inv, -BitVec.getLsbD_eq_getElem]
  | v2s v => obtain ⟨_, _, rfl⟩ := hf; simp [State.inv, statusWord_inv, -BitVec.getLsbD_eq_getElem]
  | xbit w idx => obtain ⟨_, _, rfl⟩ := hf; simp [State.inv, statusWord_inv, -BitVec.getLsbD_eq_getElem]
  | clra => obtain ⟨_, _, _, rfl⟩ := hf; simp [State.inv]
  | pk8 b => obtain ⟨_, _, _, rfl⟩ := hf; simp [State.inv, statusWord_inv, -BitVec.getLsbD_eq_getElem]
  | pk6 c => obtain ⟨_, _, _, _, _, rfl⟩ := hf; simp
  | ems => obtain ⟨_, _, _, rfl⟩ := hf; simp [State.inv, statusWord_inv, -BitVec.getLsbD_eq_getElem]
  | emb fin => obtain ⟨_, _, _, rfl⟩ := hf; simp [State.inv, statusWord_inv, -BitVec.getLsbD_eq_getElem]
  | clrf => obtain ⟨_, _, rfl⟩ := hf; simp

/-- Every command but CLRF leaves the flags or lets INV rise (R22, R23). -/
theorem exec_flagsRise {i : Instr} {s t : State} (hi : i ≠ .clrf) (e : exec i s = .next t) : flagsRise s t := by
  obtain ⟨_, _, _, _, hinv, hinvpos, _⟩ := registersChangeOnlyByTheirCommands i s t e
  by_cases hkept : t.invpos = s.invpos ∧ t.inv = s.inv
  · exact .inl hkept
  · rcases (not_and_or.1 hkept).elim hinvpos hinv with ⟨c, rfl⟩ | rfl | hclrf
    · exact execPk6_flagsRise e
    · exact execDec_flagsRise e
    · exact absurd hclrf hi

/-- Settles O53: the flags are as before or INV has risen, and by O54 only PK6 and DEC change INV. -/
theorem invposIsWrittenWhenInvRises : Obligations.InvposIsWrittenWhenInvRises := by
  intro i s t hi e
  obtain ⟨_, _, _, _, hcommand, _⟩ := registersChangeOnlyByTheirCommands i s t e
  rcases exec_flagsRise hi e with ⟨hpos, hinv⟩ | hrise
  · exact ⟨fun h => absurd hpos h, fun h => absurd hinv h⟩
  · refine ⟨fun _ => hrise, fun h => ⟨hrise.1, ?_⟩⟩
    rcases hcommand h with hpk6 | hdec | hclrf
    · exact .inr hpk6
    · exact .inl hdec
    · exact absurd hclrf hi

/-- Settles O51: STATUS changes by a word or a reset, and while a fault is pending every word but 0xB000 is dropped. -/
theorem pendingFaultStaysUntilCleared : Obligations.PendingFaultStaysUntilCleared := by
  intro s t hp e hne
  rcases step_status e with hs | ⟨w, rest, hin, hw⟩ | ⟨hs, rest, hin⟩
  · exact absurd (congrArg (·.extractLsb' 0 4) hs) hne
  · by_cases hclrf : w = clrfWord
    · subst hclrf
      cases (issueWord_clrfWord _).symm.trans hw
      exact ⟨acknowledge_err _, rest, .inl hin⟩
    · have hd : dropped w { s with inbox := rest } = true := dropped_of_pending hp hclrf
      rw [issueWord, if_pos hd] at hw
      cases hw
      exact absurd rfl hne
  · exact ⟨congrArg (·.extractLsb' 0 4) hs, rest, .inr hin⟩

/-- Settles O52: STATUS changes by a word or a reset, and the words other than 0xB000 do not clear INV. -/
theorem invalidFlagIsSticky : Obligations.InvalidFlagIsSticky := by
  intro s t hinv e hclear
  have hne : t.inv ≠ s.inv := by rw [hclear, hinv]; decide
  rcases step_status e with hs | ⟨w, rest, hin, hw⟩ | ⟨_, rest, hin⟩
  · exact absurd (congrArg (·.getLsbD 4) hs) hne
  · rcases issueWord_eq_next hw with ht | ⟨i, hi, he⟩ | ht
    · exact absurd (congrArg State.inv ht) hne
    · by_cases hclrf : i = .clrf
      · subst hclrf
        obtain rfl := eq_clrfWord_of_decode hi
        exact ⟨rest, .inl hin⟩
      · rcases exec_flagsRise hclrf he with ⟨_, hsame⟩ | ⟨hlow, _⟩
        · exact absurd hsame hne
        · exact absurd (hinv.symm.trans hlow) (by decide)
    · exact absurd ((congrArg State.inv ht).trans (State.setErr_inv _ _)) hne
  · exact ⟨rest, .inr hin⟩

end Sys2Proof.Machine
end

section
namespace Sys2Proof.Machine

/-! ### No command reads DST (10_state.md R29) -/

/-- From `s` with any destination in the place of its own, `f` writes `vs` from DSTPOS on and otherwise answers `t`. -/
def writesTo (f : State → Host.Outcome State Fault Refusal) (s t : State) (vs : List Byte) : Prop :=
  vs.length ≤ s.room ∧ t.dstpos = forward s.dstpos vs.length ∧
  ∀ m : Memory, f { s with dst := m } = .next { t with dst := m.writeAll s.dstpos.toNat vs }

/-- What does not touch DST writes nothing to it. -/
theorem writesTo_nil {f : State → Host.Outcome State Fault Refusal} {s t : State} (hpos : t.dstpos = s.dstpos)
    (h : ∀ m : Memory, f { s with dst := m } = .next { t with dst := m }) : writesTo f s t [] :=
  ⟨Nat.zero_le _, by rw [hpos]; exact (forward_zero _).symm, h⟩

/-- One list of `DstWrite`s writes what fits, whatever stands in DST. -/
theorem dstWriteAll_writesTo {vs : List Byte} {s t : State} (e : (dstWriteAll vs s).outcome = .next t) :
    ∃ ws, writesTo (fun u => (dstWriteAll vs u).outcome) s t ws := by
  rcases Nat.lt_or_ge s.room vs.length with h | h
  · cases (congrArg Flow.outcome (dstWriteAll_of_short h)).symm.trans e
    have hlen : (vs.take s.room).length = s.room := List.length_take_of_le (Nat.le_of_lt h)
    exact ⟨vs.take s.room, hlen.le, by rw [hlen]; rfl,
      fun m => congrArg Flow.outcome (dstWriteAll_of_short (s := { s with dst := m }) h)⟩
  · cases (congrArg Flow.outcome (dstWriteAll_of_fits h)).symm.trans e
    exact ⟨vs, h, rfl, fun m => congrArg Flow.outcome (dstWriteAll_of_fits (s := { s with dst := m }) h)⟩

theorem execEnc_writesTo {s t : State} (e : execEnc s = .next t) : ∃ vs, writesTo execEnc s t vs := by
  have hle := srcpos_le_of_execEnc e
  have hlen := encodedText_length s.remaining
  have hloop (m : Memory) := encodeLoop_eq _ { s with dst := m } hle (remaining_lt_sourceFuel s)
  obtain ⟨fits, short⟩ := encodeLoop_eq _ s hle (remaining_lt_sourceFuel s)
  rcases Nat.lt_or_ge s.room (4 * ceilDiv s.remaining.length 3) with hr | hr
  · cases (congrArg Flow.outcome (short hr)).symm.trans e
    have htake : ((encodedText s.remaining).take s.room).length = s.room :=
      List.length_take_of_le (by rw [hlen]; exact Nat.le_of_lt hr)
    exact ⟨(encodedText s.remaining).take s.room, htake.le, by rw [htake]; rfl,
      fun m => congrArg Flow.outcome ((hloop m).2 hr)⟩
  · cases (congrArg Flow.outcome (fits hr)).symm.trans e
    exact ⟨encodedText s.remaining, by rw [hlen]; exact hr, rfl, fun m => congrArg Flow.outcome ((hloop m).1 hr)⟩

/-- The end of DEC with room, from any destination. -/
theorem decodeFits_withDst (s : State) (m : Memory) (r : List Byte) :
    decodeFits { s with dst := m } r = { decodeFits s r with dst := m.writeAll s.dstpos.toNat (decodedBytes r) } := by
  unfold decodeFits
  split
  · subst_vars; rfl
  · rfl

theorem decodeFits_dstpos (s : State) (r : List Byte) :
    (decodeFits s r).dstpos = forward s.dstpos (decodedBytes r).length := by
  unfold decodeFits
  split
  · subst_vars; exact (forward_zero _).symm
  · rfl

theorem execDec_writesTo {s t : State} (e : execDec s = .next t) : ∃ vs, writesTo execDec s t vs := by
  have hle := srcpos_le_of_execDec e
  have hloop (m : Memory) := decodeLoop_eq _ { s with dst := m } s.remaining rfl hle (remaining_lt_sourceFuel s)
  obtain ⟨fits, short⟩ := decodeLoop_eq _ s _ rfl hle (remaining_lt_sourceFuel s)
  rcases Nat.lt_or_ge s.room (decodedBytes s.remaining).length with hr | hr
  · cases (congrArg Flow.outcome (short hr)).symm.trans e
    have htake : ((decodedBytes s.remaining).take s.room).length = s.room := List.length_take_of_le (Nat.le_of_lt hr)
    exact ⟨(decodedBytes s.remaining).take s.room, htake.le, by rw [htake]; rfl,
      fun m => congrArg Flow.outcome ((hloop m).2 hr)⟩
  · cases (congrArg Flow.outcome (fits hr)).symm.trans e
    refine ⟨decodedBytes s.remaining, hr, decodeFits_dstpos _ _, fun m => ?_⟩
    rw [← decodeFits_withDst]
    exact congrArg Flow.outcome ((hloop m).1 hr)

/-- Every command writes some list of elements and does the rest the same, whatever stands in DST. -/
theorem exec_writesTo {i : Instr} {s t : State} (e : exec i s = .next t) : ∃ vs, writesTo (exec i) s t vs := by
  cases i with
  | enc => exact execEnc_writesTo e
  | dec => exact execDec_writesTo e
  | s2v c => cases e; exact ⟨[], writesTo_nil rfl fun _ => rfl⟩
  | v2s v =>
    rcases execV2s_cases v with he | he <;> cases (he s).symm.trans e <;> exact ⟨[], writesTo_nil rfl fun _ => he _⟩
  | xbit w idx =>
    rcases execXbit_cases w idx with ⟨_, he⟩ | he <;> cases (he s).symm.trans e <;>
      exact ⟨[], writesTo_nil rfl fun _ => he _⟩
  | clra => cases e; exact ⟨[], writesTo_nil rfl fun _ => rfl⟩
  | pk8 b =>
    rcases packByte_cases b s with ⟨hc, he⟩ | ⟨hc, he⟩ <;> cases (congrArg Flow.outcome he).symm.trans e
    · exact ⟨[], writesTo_nil rfl fun m => congrArg Flow.outcome (packByte_of_lt (s := { s with dst := m }) hc)⟩
    · exact ⟨[], writesTo_nil rfl fun m => congrArg Flow.outcome (packByte_of_full (s := { s with dst := m }) hc)⟩
  | pk6 c =>
    rcases packSymbol_cases c _ s with ⟨hc, he⟩ | ⟨hc, he⟩ <;> cases (congrArg Flow.outcome he).symm.trans e
    · exact ⟨[], writesTo_nil rfl fun m => congrArg Flow.outcome (packSymbol_of_lt (s := { s with dst := m }) hc)⟩
    · exact ⟨[], writesTo_nil rfl fun m => congrArg Flow.outcome (packSymbol_of_full (s := { s with dst := m }) hc)⟩
  | ems =>
    by_cases hc : s.cnt = 0 ∨ s.cnt = 4
    · have he (m : Memory) : emitSymbols { s with dst := m } = raise .groupState { s with dst := m } := if_pos hc
      cases (congrArg Flow.outcome (he s.dst)).symm.trans e
      exact ⟨[], writesTo_nil rfl fun m => congrArg Flow.outcome (he m)⟩
    · have he (m : Memory) : emitSymbols { s with dst := m } =
          dstWriteAll (groupSymbols s.acc s.cnt.toNat) { s with dst := m } := if_neg hc
      obtain ⟨vs, hroom, hpos, hw⟩ := dstWriteAll_writesTo ((congrArg Flow.outcome (he s.dst)).symm.trans e)
      exact ⟨vs, hroom, hpos, fun m => (congrArg Flow.outcome (he m)).trans (hw m)⟩
  | emb fin =>
    by_cases hc : s.cnt = 0
    · have he (m : Memory) : emitBytes fin { s with dst := m } = raise .groupState { s with dst := m } := if_pos hc
      cases (congrArg Flow.outcome (he s.dst)).symm.trans e
      exact ⟨[], writesTo_nil rfl fun m => congrArg Flow.outcome (he m)⟩
    · have he (m : Memory) : emitBytes fin { s with dst := m } =
          dstWriteAll (groupBytes s.acc (emitCount fin s.padc)) { s with dst := m } := if_neg hc
      obtain ⟨vs, hroom, hpos, hw⟩ := dstWriteAll_writesTo ((congrArg Flow.outcome (he s.dst)).symm.trans e)
      exact ⟨vs, hroom, hpos, fun m => (congrArg Flow.outcome (he m)).trans (hw m)⟩
  | clrf => cases e; exact ⟨[], writesTo_nil rfl fun _ => rfl⟩

/-- Settles O56: the elements a command writes and all else it does are the same from every destination. -/
theorem commandsDoNotReadTheDestination : Obligations.CommandsDoNotReadTheDestination := by
  intro i s t m e
  obtain ⟨vs, hroom, hpos, hw⟩ := exec_writesTo e
  have hdst : t.dst = s.dst.writeAll s.dstpos.toNat vs := by
    have ht := e.symm.trans (hw s.dst)
    rw [Host.Outcome.next.injEq] at ht
    exact congrArg State.dst ht
  refine ⟨m.writeAll s.dstpos.toNat vs, vs, hw m, ⟨?_, fun p => ?_⟩, fun p => Memory.read_writeAll _ _ _ _⟩
  · rw [hpos]; exact toNat_forward_dstpos hroom
  · rw [hdst]; exact Memory.read_writeAll _ _ _ _

end Sys2Proof.Machine
end

section
namespace Sys2Proof.Machine

/-! ### Reset (10_state.md R32; 70_reset_and_hazards.md R180) -/

theorem issueWord_of_dropped {w : Word} {s : State} (hd : dropped w s = true) : issueWord w s = .next s := if_pos hd

theorem issueWord_of_ok {w : Word} {s : State} {i : Instr} (hd : dropped w s = false) (hi : decode w = .ok i) :
    issueWord w s = exec i s := by simp [issueWord, hd, hi]

theorem issueWord_of_error {w : Word} {s : State} {x : IllegalWord} (hd : dropped w s = false) (hx : decode w = .error x) :
    issueWord w s = .next (s.setErr 1) := by
  simp [issueWord, hd, hx, raise_eq, BlockFault.code]

theorem wrote_nil {s t : State} (hdst : t.dst = s.dst) (hpos : t.dstpos = s.dstpos) : wrote s t [] := by
  simpa using wrote_of_tookElements (tookElements_nil hdst hpos)

/-- A word writes a list, and its first `n` elements where it is stopped after `n` of them; what stood in DST before the last
reset and the waiting actions are as before (R180; log 19). -/
theorem issueWord_stopped (w : Word) (n : Nat) {s : State} (h : s.srcpos.toNat ≤ s.src.length) :
    ∃ u v vs, issueWord w s = .next u ∧ wrote s u vs ∧ issueWord w (stopWritesAfter n s) = .next v ∧
      wrote s v (vs.take n) ∧ v.leftover = s.leftover ∧ v.inbox = s.inbox := by
  have hnone {v : State} (hdst : v.dst = s.dst) (hpos : v.dstpos = s.dstpos) : wrote s v (List.take n []) := by
    rw [List.take_nil]; exact wrote_nil hdst hpos
  rcases issueWord_cases w s with ⟨hd, hs⟩ | ⟨hd, i, hi, hs⟩ | ⟨hd, ⟨x, hx⟩, hs⟩
  · exact ⟨s, _, [], hs, wrote_nil rfl rfl, issueWord_of_dropped hd, hnone rfl rfl, rfl, rfl⟩
  · obtain ⟨u, hu⟩ := exec_isNext i h
    obtain ⟨v, hv⟩ := exec_isNext i (s := stopWritesAfter n s) h
    obtain ⟨_, _, _, _, _, _, _, _, _, _, hleft, hinbox, _⟩ := registersChangeOnlyByTheirCommands _ _ _ hv
    have hwrote : wrote s v (((elements i s).take s.room).take n) := by
      have := wrote_of_tookElements (exec_takes (s := stopWritesAfter n s) h hv)
      rwa [stopWritesAfter_elements, stopWritesAfter_room, ← List.take_take] at this
    have hstopped := (issueWord_of_ok (s := stopWritesAfter n s) hd hi).trans hv
    exact ⟨u, v, _, hs.trans hu, wrote_of_tookElements (exec_takes h hu), hstopped, hwrote, hleft, hinbox⟩
  · exact ⟨_, _, [], hs, wrote_nil rfl rfl, issueWord_of_error hd hx, hnone rfl rfl, rfl, rfl⟩

/-- What stands in DST after the first `n` writes of a command: its elements where it wrote, and elsewhere what stood there. -/
theorem contents_of_wrote {s t : State} {vs : List Byte} {n : Nat} (hw : wrote s t (vs.take n))
    (hleft : t.leftover = s.leftover) (p : Nat) :
    t.contents p =
      if s.dstpos.toNat ≤ p ∧ p < s.dstpos.toNat + (vs.take n).length then vs[p - s.dstpos.toNat]? else s.contents p := by
  rw [State.contents, hw.2 p, hleft]
  split
  · have hlt : p - s.dstpos.toNat < (vs.take n).length := by omega
    rw [List.getElem?_eq_getElem hlt, Option.some_or, List.getElem_take, List.getElem?_eq_getElem]
  · rfl

/-- Settles O17: the registers by the definition of reset; DST by what the abandoned command had written (R180). -/
theorem resetLeavesTheResetValues : Obligations.ResetLeavesTheResetValues := by
  refine ⟨⟨rfl, rfl, rfl, rfl, rfl, rfl, rfl, rfl, rfl, rfl, rfl, rfl, fun _ => rfl⟩, fun s rest hin => ?_,
    fun s rest w hin hle => ?_⟩
  · exact ⟨resetBlock { s with inbox := rest }, by rw [step, hin]; rfl, rfl, resetBlock_contents { s with inbox := rest }⟩
  · obtain ⟨u, v, vs, hu, hwu, hv, hwv, hleft, hinbox⟩ :=
      issueWord_stopped w (Config.writesBeforeReset s.abandoned) (s := { s with inbox := rest }) hle
    have hcount : (vs.take (Config.writesBeforeReset s.abandoned)).length ≤ vs.length := List.length_take_le' _ _
    refine ⟨{ resetBlock v with abandoned := s.abandoned + 1 }, u, vs, _, ?_, ?_, hu, hwu, hcount, fun p => ?_⟩
    · rw [step, hin]
      simp only [perform, resetDuring, hv]
    · rw [resetBlock, hinbox]
    · exact (resetBlock_contents v p).trans (contents_of_wrote hwv hleft p)

/-! ### Register reads (10_state.md R20, R24) -/

/-- STATUS as a number is `INV ++ ERR` (R20). -/
theorem status_toNat (s : State) : s.status.toNat = 16 * s.inv.toNat + s.err.toNat := by
  unfold State.inv State.err
  generalize s.status = w
  revert w
  decide

/-- A number above 8 reads 0 (R24). -/
theorem registerValue_of_gt (s : State) : ∀ {n : Nat}, 8 < n → registerValue n s = 0
  | _ + 9, _ => rfl

/-- Settles O12: a read is answered from the table of R24. -/
theorem registerReadReturnsTheRegister : Obligations.RegisterReadReturnsTheRegister := by
  intro s rest n hin
  refine ⟨registerValue n s, by rw [step, hin]; rfl, ?_, ?_, ?_, ?_, ?status, ?_, ?_, ?_, ?_, registerValue_of_gt s⟩
  case status => rintro rfl; exact status_toNat s
  all_goals rintro rfl; rfl

/-- Every register is at most as wide as the port (R24). -/
theorem toNat_lt_port {w : Nat} (x : BitVec w) (h : w ≤ Config.portWidth) : x.toNat < 2 ^ Config.portWidth :=
  Nat.lt_of_lt_of_le x.isLt (Nat.pow_le_pow_right (by decide) h)

/-- Settles O13: ACC is the widest register of a fixed width and the cursors have CW bits. -/
theorem registerValuesFitThePort : Obligations.RegisterValuesFitThePort := by
  intro s n
  have hfixed : 24 ≤ Config.portWidth := Nat.le_max_left _ _
  have hcursor : Config.CW ≤ Config.portWidth := Nat.le_max_right _ _
  unfold registerValue
  split
  case h_10 => exact Nat.two_pow_pos _
  all_goals exact toNat_lt_port _ (by omega)

/-! ### The alphabet (10_state.md R25, R26) -/

/-- The lookup finds each entry of ALPHA at its own index, so no code stands twice in it (R120). -/
theorem symToVal_alpha : ∀ i : Fin 64, symToVal symbols.alpha[i] = i.val := by decide

/-- Settles O18: the closed form entry by entry, and distinct codes by the lookup. -/
theorem alphabetIsTheStandardOne : Obligations.AlphabetIsTheStandardOne := by
  refine ⟨by decide, fun i j h => ?_, rfl, by decide⟩
  exact Fin.ext ((symToVal_alpha i).symm.trans ((congrArg symToVal h).trans (symToVal_alpha j)))

end Sys2Proof.Machine
end

/-!
PROOFS of the statements about the access primitives and the bounds of DST (20_memory.md).
-/

section
namespace Sys2Proof.Machine

/-! ### The source (20_memory.md R41, R42) -/

/-- Before the end SrcRead answers with the element at the cursor and the cursor one on (R42). -/
theorem srcRead_of_lt {s : State} (h : s.srcpos.toNat < s.src.length) :
    srcRead s = some (s.src.elements[s.srcpos.toNat], { s with srcpos := forward s.srcpos 1 }) := by
  rw [srcRead, dif_pos h, advance_eq]

/-- SrcAtEnd compares SRCPOS with SRCLEN (R41). -/
theorem srcAtEnd_iff (s : State) : srcAtEnd s = true ↔ s.srcpos.toNat = s.src.length := beq_iff_eq

/-- Settles O24: where SRCPOS is at most SRCLEN and not at it, it is below it, and the advance does not wrap. -/
theorem sourceReadAdvancesByOne : Obligations.SourceReadAdvancesByOne := by
  intro s
  refine ⟨srcAtEnd_iff s, fun hle hend => ?_⟩
  have hne : s.srcpos.toNat ≠ s.src.length := fun h => Bool.eq_false_iff.1 hend ((srcAtEnd_iff s).2 h)
  have hlt : s.srcpos.toNat < s.src.length := Nat.lt_of_le_of_ne hle hne
  exact ⟨_, _, List.getElem?_eq_getElem hlt, toNat_forward (Nat.sub_pos_of_lt hlt) s.src.fits, srcRead_of_lt hlt⟩

/-! ### The destination (20_memory.md R40, R43, R50) -/

/-- One element written below the capacity, in the form of the statements. -/
theorem wrote_writeElement {s : State} (h : s.dstpos.toNat < s.dstcap.toNat) (v : Byte) :
    wrote s { s with dst := s.dst.write s.dstpos.toNat v, dstpos := forward s.dstpos 1 } [v] :=
  ⟨toNat_forward_dstpos (Nat.sub_pos_of_lt h), fun p => Memory.read_writeAll s.dst s.dstpos.toNat p [v]⟩

/-- Settles O25: the two things one `DstWrite` can do, told apart by DSTPOS and DSTCAP. -/
theorem destinationWriteOrCapacity : Obligations.DestinationWriteOrCapacity := by
  intro v s
  rcases dstWrite_cases v s with ⟨hroom, hw⟩ | ⟨hfull, hw⟩
  · exact ⟨fun h => absurd hroom (Nat.not_lt_of_le h), fun _ => ⟨_, hw, wrote_writeElement hroom v, rfl⟩⟩
  · exact ⟨fun _ => hw, fun h => absurd h (Nat.not_lt_of_le hfull)⟩

/-- From every state, a command that answers a next state has written some list that fits below DSTCAP. -/
theorem exec_wrote {i : Instr} {s t : State} (e : exec i s = .next t) : ∃ vs, vs.length ≤ s.room ∧ wrote s t vs := by
  obtain ⟨vs, hroom, hpos, hw⟩ := exec_writesTo e
  have ht : t = { t with dst := s.dst.writeAll s.dstpos.toNat vs } := Host.Outcome.next.inj (e.symm.trans (hw s.dst))
  refine ⟨vs, hroom, ?_, fun p => ?_⟩
  · rw [hpos]; exact toNat_forward_dstpos hroom
  · rw [congrArg State.dst ht]; exact Memory.read_writeAll _ _ _ _

/-- Only EMS, EMB, ENC and DEC have DST in their frame (R24, R40). -/
theorem exec_dst_of_ne {i : Instr} {s t : State} (e : exec i s = .next t) (hne : t.dst ≠ s.dst) :
    i = .ems ∨ (∃ fin, i = .emb fin) ∨ i = .enc ∨ i = .dec := by
  have hf := exec_framed e
  cases i with
  | ems => exact .inl rfl
  | emb fin => exact .inr (.inl ⟨fin, rfl⟩)
  | enc => exact .inr (.inr (.inl rfl))
  | dec => exact .inr (.inr (.inr rfl))
  | s2v c => obtain ⟨_, _, rfl⟩ := hf; exact absurd rfl hne
  | v2s v => obtain ⟨_, _, rfl⟩ := hf; exact absurd rfl hne
  | xbit w idx => obtain ⟨_, _, rfl⟩ := hf; exact absurd rfl hne
  | clra => obtain ⟨_, _, _, rfl⟩ := hf; exact absurd rfl hne
  | pk8 b => obtain ⟨_, _, _, rfl⟩ := hf; exact absurd rfl hne
  | pk6 c => obtain ⟨_, _, _, _, _, rfl⟩ := hf; exact absurd rfl hne
  | clrf => obtain ⟨_, _, rfl⟩ := hf; exact absurd rfl hne

/-- Settles O55: the list that the command wrote fits and stands from the old DSTPOS to the new one. -/
theorem destinationChangesOnlyBelowTheCapacity : Obligations.DestinationChangesOnlyBelowTheCapacity := by
  intro i s t e
  obtain ⟨vs, hroom, hpos, hread⟩ := exec_wrote e
  rw [State.room] at hroom
  refine ⟨by omega, fun _ => by omega, fun p hlo hhi => ?_, fun p hout => ?_, exec_dst_of_ne e⟩
  · have hlt : p - s.dstpos.toNat < vs.length := by omega
    exact ⟨_, by rw [hread, if_pos (by omega), List.getElem?_eq_getElem hlt]⟩
  · rw [hread, if_neg (by omega)]

end Sys2Proof.Machine
end

/-!
PROOFS of the statements about command words and assembler lines (30_encoding.md).
The decoder and the encoder are one relation, `decode_eq_ok_iff`; the statements about words follow from it.
-/

section
namespace Sys2Proof

/-! ### A bit vector and its two parts -/

/-- A field is `h ++ l` when its upper part is `h` and its lower part is `l`. -/
theorem extractLsb'_eq_append_iff {w s n m : Nat} {c : BitVec w} {h : BitVec n} {l : BitVec m} :
    c.extractLsb' s (n + m) = h ++ l ↔ c.extractLsb' (s + m) n = h ∧ c.extractLsb' s m = l := by
  rw [← BitVec.extractLsb'_append_extractLsb'_eq_extractLsb' rfl]
  refine ⟨fun e => ?_, fun ⟨hh, hl⟩ => by rw [hh, hl]⟩
  have eh := congrArg (BitVec.extractLsb' m n) e
  have el := congrArg (BitVec.extractLsb' 0 m) e
  simp only [BitVec.extractLsb'_append_eq_left, BitVec.extractLsb'_append_eq_right] at eh el
  exact ⟨eh, el⟩

/-- A word is `h ++ l` when its upper bits are `h` and its lower bits are `l`. -/
theorem eq_append_iff {n m : Nat} {c : BitVec (n + m)} {h : BitVec n} {l : BitVec m} :
    c = h ++ l ↔ c.extractLsb' m n = h ∧ c.extractLsb' 0 m = l := by
  simpa only [BitVec.extractLsb'_eq_self, Nat.zero_add] using
    extractLsb'_eq_append_iff (s := 0) (c := c) (h := h) (l := l)

/-- A mask of ones over zeros compares the upper bits. -/
theorem and_allOnes_append_zero_eq_iff {n m : Nat} {c : BitVec (n + m)} {h : BitVec n} :
    c &&& (BitVec.allOnes n ++ 0#m) = h ++ 0#m ↔ c.extractLsb' m n = h := by
  rw [eq_append_iff]
  simp only [BitVec.extractLsb'_and, BitVec.extractLsb'_append_eq_left, BitVec.extractLsb'_append_eq_right,
    BitVec.and_allOnes, BitVec.and_zero, and_true]

/-- The word whose upper bits pass the mask and whose lower bits are `l`. -/
theorem masked_and_low_iff {n m : Nat} {c : BitVec (n + m)} {h : BitVec n} {l : BitVec m} :
    (c &&& (BitVec.allOnes n ++ 0#m) == h ++ 0#m) = true ∧ c.extractLsb' 0 m = l ↔ c = h ++ l := by
  rw [beq_iff_eq, and_allOnes_append_zero_eq_iff, eq_append_iff]

/-- A field of one bit is that bit. -/
theorem extractLsb'_one {w : Nat} (c : BitVec w) (k : Nat) : c.extractLsb' k 1 = BitVec.ofBool (c.getLsbD k) := by
  ext i hi
  obtain rfl : i = 0 := by omega
  simp

/-- Bits put in the place of zero bits are added. -/
theorem append_eq_add {n m : Nat} (h : BitVec n) (l : BitVec m) : h ++ l = (h ++ 0#m) + l.setWidth (n + m) := by
  have hlt : l.toNat < 2 ^ (n + m) := l.isLt.trans_le (Nat.pow_le_pow_right Nat.two_pos (Nat.le_add_left m n))
  have hl : l.setWidth (n + m) = 0#n ++ l := BitVec.eq_of_toNat_eq (by simp [Nat.mod_eq_of_lt hlt])
  rw [hl, BitVec.append_zero_add_zero_append]

/-! ### The formats (R61, R62) -/

/-- The bit `w` that selects a width (R62). -/
def FieldWidth.bit : FieldWidth → Bool
  | .six => false
  | .eight => true

/-- The `w` field as bit 2 of the word. -/
theorem wField_eq_iff {c : Word} {w : FieldWidth} : wField c = w ↔ c.extractLsb' 2 1 = BitVec.ofBool w.bit := by
  rw [extractLsb'_one, BitVec.ofBool_eq_iff_eq, wField]
  cases w <;> cases c.getLsbD 2 <;> simp [FieldWidth.bit]

/-- The `fin` field as bit 0 of the word. -/
theorem finField_eq_iff {c : Word} {fin : Bool} : finField c = fin ↔ c.extractLsb' 0 1 = BitVec.ofBool fin := by
  rw [extractLsb'_one, BitVec.ofBool_eq_iff_eq, finField]

/-- The two operands of XBIT as one field of three bits. -/
theorem xbitFields_eq_iff {c : Word} {w : FieldWidth} {idx : BitVec 2} :
    c.extractLsb' 0 3 = BitVec.ofBool w.bit ++ idx ↔ wField c = w ∧ idxField c = idx := by
  rw [wField_eq_iff]
  exact extractLsb'_eq_append_iff (s := 0) (n := 1) (m := 2)

theorem formatI_eq_add (op : BitVec 4) (b : Byte) : formatI op b = formatI op 0 + b.setWidth 16 :=
  append_eq_add (op ++ 0#4) b

theorem formatX_eq (op : BitVec 4) (w : FieldWidth) (idx : BitVec 2) :
    formatX op w idx = op ++ 0#9 ++ (BitVec.ofBool w.bit ++ idx) := by
  cases w <;> exact BitVec.append_assoc

section
variable {c : Word} {op : BitVec 4}

/-- The words of format N, by their fields. -/
theorem eq_formatN_iff : c = formatN op ↔ opField c = op ∧ c.extractLsb' 0 12 = 0 :=
  eq_append_iff (n := 4) (m := 12)

/-- The words of format I, by their fields. -/
theorem exists_eq_formatI_iff : (∃ b, c = formatI op b) ↔ opField c = op ∧ c.extractLsb' 8 4 = 0 := by
  have hword (b : Byte) : c = formatI op b ↔ c.extractLsb' 8 8 = op ++ 0#4 ∧ imm8Field c = b :=
    eq_append_iff (n := 8) (m := 8)
  simp only [hword, exists_and_left, exists_eq', and_true]
  exact extractLsb'_eq_append_iff (n := 4) (m := 4)

/-- The words of format X, by their fields. -/
theorem exists_eq_formatX_iff : (∃ w idx, c = formatX op w idx) ↔ opField c = op ∧ c.extractLsb' 3 9 = 0 := by
  have hword (w : FieldWidth) (idx : BitVec 2) :
      c = formatX op w idx ↔ c.extractLsb' 3 13 = op ++ 0#9 ∧ wField c = w ∧ idxField c = idx := by
    rw [formatX_eq, ← xbitFields_eq_iff]
    exact eq_append_iff (n := 13) (m := 3)
  simp only [hword, exists_and_left, exists_eq', and_true]
  exact extractLsb'_eq_append_iff (n := 4) (m := 9)

/-- The words of format F, by their fields. -/
theorem exists_eq_formatF_iff : (∃ fin, c = formatF op fin) ↔ opField c = op ∧ c.extractLsb' 1 11 = 0 := by
  have hword (fin : Bool) : c = formatF op fin ↔ c.extractLsb' 1 15 = op ++ 0#11 ∧ finField c = fin := by
    rw [finField_eq_iff]
    exact eq_append_iff (n := 15) (m := 1)
  simp only [hword, exists_and_left, exists_eq', and_true]
  exact extractLsb'_eq_append_iff (n := 4) (m := 11)

/-- Every command has one of the four formats (R61, R63). -/
theorem exists_eq_encode_iff : (∃ i, c = encode i) ↔
    (∃ op ∈ ([0x1, 0x2, 0x6, 0x9, 0xB] : List (BitVec 4)), c = formatN op) ∨
    (∃ op ∈ ([0x3, 0x4, 0x7, 0x8] : List (BitVec 4)), ∃ b, c = formatI op b) ∨
    (∃ w idx, c = formatX 0x5 w idx) ∨ (∃ fin, c = formatF 0xA fin) := by
  constructor
  · rintro ⟨i, hi⟩
    cases i with
    | enc | dec | clra | ems | clrf => exact .inl ⟨_, by decide, hi⟩
    | s2v b | v2s b | pk8 b | pk6 b => exact .inr (.inl ⟨_, by decide, b, hi⟩)
    | xbit w idx => exact .inr (.inr (.inl ⟨w, idx, hi⟩))
    | emb fin => exact .inr (.inr (.inr ⟨fin, hi⟩))
  · simp only [List.exists_mem_cons_iff, List.not_mem_nil, false_and, exists_false, or_false]
    rintro ((h | h | h | h | h) | (⟨b, h⟩ | ⟨b, h⟩ | ⟨b, h⟩ | ⟨b, h⟩) | ⟨w, idx, h⟩ | ⟨fin, h⟩)
    exacts [⟨.enc, h⟩, ⟨.dec, h⟩, ⟨.clra, h⟩, ⟨.ems, h⟩, ⟨.clrf, h⟩, ⟨.s2v b, h⟩, ⟨.v2s b, h⟩, ⟨.pk8 b, h⟩,
      ⟨.pk6 b, h⟩, ⟨.xbit w idx, h⟩, ⟨.emb fin, h⟩]

/-! ### The rows of the opcode map (R63) -/

variable {name : String} {operands : Word → Instr}

theorem formatN_row_iff (op : BitVec 4) :
    rowMatches c ⟨name, formatN op, 0xFFFF, operands⟩ = true ↔ c = formatN op := by
  have hc : c &&& 0xFFFF = c := BitVec.and_allOnes
  rw [rowMatches, hc, beq_iff_eq]

theorem formatI_row_iff (op : BitVec 4) (b : Byte) :
    rowMatches c ⟨name, op ++ 0#4 ++ 0#8, 0xFF00, operands⟩ = true ∧ imm8Field c = b ↔ c = formatI op b :=
  masked_and_low_iff (n := 8) (m := 8)

theorem formatX_row_iff (op : BitVec 4) (w : FieldWidth) (idx : BitVec 2) :
    rowMatches c ⟨name, op ++ 0#9 ++ 0#3, 0xFFF8, operands⟩ = true ∧ wField c = w ∧ idxField c = idx ↔
      c = formatX op w idx := by
  rw [← xbitFields_eq_iff, formatX_eq]
  exact masked_and_low_iff (n := 13) (m := 3)

theorem formatF_row_iff (op : BitVec 4) (fin : Bool) :
    rowMatches c ⟨name, op ++ 0#11 ++ 0#1, 0xFFFE, operands⟩ = true ∧ finField c = fin ↔ c = formatF op fin := by
  rw [finField_eq_iff]
  exact masked_and_low_iff (n := 15) (m := 1)

end

/-- The patterns of two rows that one word matches agree where both masks look. -/
theorem patterns_agree_of_rowMatches {c : Word} {r q : OpcodeRow} (hr : rowMatches c r = true)
    (hq : rowMatches c q = true) : r.pattern &&& q.mask = q.pattern &&& r.mask := by
  rw [← beq_iff_eq.1 hr, ← beq_iff_eq.1 hq]
  ac_rfl

/-- Settles O4: any two rows differ in a bit that both masks look at. -/
theorem opcodePatternsAreDisjoint : Obligations.OpcodePatternsAreDisjoint := by
  have hdiffer : opcodeRows.Pairwise fun r q => r.pattern &&& q.mask ≠ q.pattern &&& r.mask := by decide
  exact hdiffer.imp fun hne c ⟨hr, hq⟩ => hne (patterns_agree_of_rowMatches hr hq)

/-! ### The decoder (R64) -/

/-- The rows are disjoint, so the decoder finds any row that the word matches, wherever it stands in the map. -/
theorem decode_of_rowMatches {c : Word} {r : OpcodeRow} (hmem : r ∈ opcodeRows) (hr : rowMatches c r = true) :
    decode c = .ok (r.operands c) := by
  obtain ⟨before, after, hrows⟩ := List.append_of_mem hmem
  have hdisjoint := opcodePatternsAreDisjoint
  rw [Obligations.OpcodePatternsAreDisjoint, hrows, List.pairwise_append] at hdisjoint
  obtain ⟨-, -, hbefore⟩ := hdisjoint
  have hfind : opcodeRows.find? (rowMatches c) = some r :=
    List.find?_eq_some_iff_append.2 ⟨hr, before, after, hrows, fun q hq => by
      simpa [hr] using hbefore q hq r List.mem_cons_self c⟩
  rw [decode, hfind]

theorem decode_eq_ok_iff_row {c : Word} {i : Instr} :
    decode c = .ok i ↔ ∃ r ∈ opcodeRows, rowMatches c r = true ∧ r.operands c = i := by
  refine ⟨fun h => ?_, fun ⟨r, hmem, hr, hi⟩ => hi ▸ decode_of_rowMatches hmem hr⟩
  unfold decode at h
  split at h
  · rename_i r hr
    exact ⟨r, List.mem_of_find?_eq_some hr, List.find?_some hr, Except.ok.inj h⟩
  · cases h

/-- Each command is decoded from its own word and from no other: only one row gives its constructor, and the format of
that row gives the word. -/
theorem decode_eq_ok_iff {c : Word} {i : Instr} : decode c = .ok i ↔ c = encode i := by
  rw [decode_eq_ok_iff_row]
  cases i <;> simp only [opcodeRows, List.exists_mem_cons_iff, List.not_mem_nil, false_and, exists_false, or_false,
    false_or, and_false, and_true, reduceCtorEq, Instr.s2v.injEq, Instr.v2s.injEq, Instr.xbit.injEq, Instr.pk8.injEq,
    Instr.pk6.injEq, Instr.emb.injEq]
  case enc => exact formatN_row_iff 0x1
  case dec => exact formatN_row_iff 0x2
  case s2v sym => exact formatI_row_iff 0x3 sym
  case v2s val => exact formatI_row_iff 0x4 val
  case xbit w idx => exact formatX_row_iff 0x5 w idx
  case clra => exact formatN_row_iff 0x6
  case pk8 byte => exact formatI_row_iff 0x7 byte
  case pk6 sym => exact formatI_row_iff 0x8 sym
  case ems => exact formatN_row_iff 0x9
  case emb fin => exact formatF_row_iff 0xA fin
  case clrf => exact formatN_row_iff 0xB

/-- The illegal words are those of no command. -/
theorem decode_eq_error_iff {c : Word} : (∃ e, decode c = .error e) ↔ ¬ ∃ i, c = encode i := by
  simp only [← decode_eq_ok_iff]
  cases decode c <;> simp

/-- Settles O1: a word is decoded to a command when it is that command's word. -/
theorem decodeOfEncodeIsTheCommand : Obligations.DecodeOfEncodeIsTheCommand := fun _ _ => decode_eq_ok_iff.2 rfl

/-- Settles O2: a word is decoded to a command only when it is that command's word. -/
theorem decodedWordIsItsEncoding : Obligations.DecodedWordIsItsEncoding := fun _ _ h => (decode_eq_ok_iff.1 h).symm

/-- Settles O3: the words of no format, where each opcode has one format at most. -/
theorem illegalWordsAreThoseOfTheFormats : Obligations.IllegalWordsAreThoseOfTheFormats := by
  intro c
  rw [decode_eq_error_iff, exists_eq_encode_iff]
  simp only [eq_formatN_iff, exists_eq_formatI_iff, exists_eq_formatX_iff, exists_eq_formatF_iff, opField,
    ← and_assoc, exists_and_right, exists_eq_right']
  generalize c.extractLsb' 12 4 = op
  obtain ⟨op⟩ := op
  fin_cases op <;> simp

/-- Settles O5: each word is the word of its command. -/
theorem writtenWordsDecode : Obligations.WrittenWordsDecode := by
  simp only [Obligations.WrittenWordsDecode, decode_eq_ok_iff]
  decide

end Sys2Proof
end

section
namespace Sys2Proof.Asm

open Machine

/-! ### The assembler (R67, R68) -/

/-- A line with one byte operand issues the operand added to the opcode's word, or is refused. -/
theorem byteCommand_issue {make : Byte → Instr} (op : BitVec 4) (hmake : ∀ b, encode (make b) = formatI op b) (n : Nat) :
    (byteCommand make n).map (fun i => HostAction.issue (encode i)) =
      if n < 256 then some (.issue (formatI op 0 + BitVec.ofNat 16 n)) else none := by
  unfold byteCommand
  split_ifs with h
  · rw [Option.map_some, hmake, formatI_eq_add, BitVec.setWidth_ofNat_of_le_of_lt (by decide) h]
  · rfl

theorem embCommand_issue (n : Nat) :
    (embCommand n).map (fun i => HostAction.issue (encode i)) =
      if n < 2 then some (.issue (0xA000 + BitVec.ofNat 16 n)) else none := by
  unfold embCommand
  split_ifs with h
  · interval_cases n <;> rfl
  · rfl

theorem xbitCommand_issue (width idx : Nat) :
    (xbitCommand width idx).map (fun i => HostAction.issue (encode i)) =
      if (width = 6 ∨ width = 8) ∧ idx < 4 then
        some (.issue (0x5000 + (if width = 8 then 4 else 0) + BitVec.ofNat 16 idx))
      else none := by
  by_cases h : (width = 6 ∨ width = 8) ∧ idx < 4
  · rw [xbitCommand, if_pos h, if_pos h]
    obtain ⟨rfl | rfl, hidx⟩ := h <;> interval_cases idx <;> rfl
  · rw [xbitCommand, if_neg h, if_neg h]; rfl

/-- Settles O7: the words of format I by addition, those of EMB and XBIT operand by operand. -/
theorem assemblerWordsAndRefusals : Obligations.AssemblerWordsAndRefusals := by
  refine ⟨fun n => ⟨?_, ?_, ?_, ?_, embCommand_issue n⟩, xbitCommand_issue, rfl, rfl, rfl, rfl, rfl⟩
  · exact byteCommand_issue 0x3 (fun _ => rfl) n
  · exact byteCommand_issue 0x4 (fun _ => rfl) n
  · exact byteCommand_issue 0x7 (fun _ => rfl) n
  · exact byteCommand_issue 0x8 (fun _ => rfl) n

theorem cursorAction_toNat (number : Nat) (v : Cursor) :
    cursorAction number v.toNat = some (.writeRegister number v) := by
  rw [cursorAction, dif_pos v.isLt, BitVec.ofNatLT_toNat]

theorem cursorAction_of_ge (number : Nat) {n : Nat} (h : 2 ^ Config.CW ≤ n) : cursorAction number n = none :=
  dif_neg (Nat.not_lt_of_le h)

theorem action_src_toNat (src : Source) : action (.src (src.elements.map BitVec.toNat)) = some (.bindSource src) := by
  have hrange : (src.elements.map BitVec.toNat).all (fun n => decide (byteInRange n)) = true := by
    simpa using fun b _ => b.isLt
  have hbytes : (src.elements.map BitVec.toNat).map (BitVec.ofNat 8) = src.elements := by
    simp [Function.comp_def]
  rw [action, if_pos hrange, hbytes, sourceAction, dif_pos src.fits]

/-- Settles O6: the expansions by definition, the directives by what their operand's range allows. -/
theorem pseudoInstructionsExpand : Obligations.PseudoInstructionsExpand :=
  ⟨fun _ _ => ⟨rfl, rfl⟩, rfl, rfl, rfl, rfl, fun v => ⟨cursorAction_toNat 7 v, cursorAction_toNat 8 v⟩,
    fun _ h => ⟨cursorAction_of_ge 7 h, cursorAction_of_ge 8 h⟩, action_src_toNat⟩

end Sys2Proof.Asm
end

/-!
PROOFS of the statements about the encoder family (40_encoder.md), and about the loops that ENC and DEC share.
ENC is one turn after another of its loop, or its closed form `encodeLoop_eq`; its group commands are run one step at a time.
-/

section
namespace Sys2Proof.Machine

/-! ### The group in ACC (40_encoder.md R80, R81, R84) -/

/-- Replacing the field of `n` bits from bit `m` on, bit by bit (R84, R105). -/
theorem getLsbD_replace (a : Acc) {n : Nat} (v : BitVec n) (m : Nat) {k : Nat} (hk : k < 24) :
    ((a &&& ~~~ ((BitVec.allOnes n).setWidth 24 <<< m)) ||| (v.setWidth 24 <<< m)).getLsbD k =
      if m ≤ k ∧ k < m + n then v.getLsbD (k - m) else a.getLsbD k := by
  have hin : k - m < 24 := by omega
  simp only [BitVec.getLsbD_or, BitVec.getLsbD_and, BitVec.getLsbD_not, BitVec.getLsbD_shiftLeft,
    BitVec.getLsbD_setWidth, BitVec.getLsbD_allOnes, hk, hin, decide_true, Bool.true_and]
  rcases Nat.lt_or_ge k m with hlow | hlow
  · simp only [hlow, Nat.not_le_of_lt hlow, false_and, decide_true, if_false]; simp
  rcases Nat.lt_or_ge k (m + n) with hhigh | hhigh
  · simp only [Nat.not_lt_of_le hlow, hlow, hhigh, show k - m < n by omega, decide_true, decide_false]; simp
  · have hout : n ≤ k - m := by omega
    simp [hlow, Nat.not_lt_of_le hhigh, Nat.not_lt_of_le hout, BitVec.getLsbD_of_ge v _ hout]

/-- The bits of Insert8 (R84). -/
theorem getLsbD_insert8 (a : Acc) (i : Nat) (b : Byte) {k : Nat} (hk : k < 24) :
    (insert8 a i b).getLsbD k =
      if 16 - 8 * i ≤ k ∧ k < 16 - 8 * i + 8 then b.getLsbD (k - (16 - 8 * i)) else a.getLsbD k :=
  getLsbD_replace a b (16 - 8 * i) hk

/-- The bits of Extract (R122). -/
theorem getLsbD_extract (a : Acc) (i w k : Nat) :
    (extract a i w).getLsbD k = (decide (k < w) && a.getLsbD (24 - w * (i + 1) + k)) :=
  BitVec.getLsbD_extractLsb' ..

/-- The field that Insert8 wrote (R84). -/
theorem extract_insert8_same (a : Acc) {i : Nat} (hi : i ≤ 2) (b : Byte) : extract (insert8 a i b) i 8 = b := by
  refine BitVec.eq_of_getLsbD_eq fun k hk => ?_
  rw [getLsbD_extract, getLsbD_insert8 _ _ _ (by omega), if_pos (by omega), decide_eq_true hk, Bool.true_and]
  congr 1; omega

/-- The fields that Insert8 leaves alone (R84). -/
theorem extract_insert8_ne (a : Acc) {i j : Nat} (hi : i ≤ 2) (hj : j ≤ 2) (hne : j ≠ i) (b : Byte) :
    extract (insert8 a i b) j 8 = extract a j 8 := by
  refine BitVec.eq_of_getLsbD_eq fun k hk => ?_
  rw [getLsbD_extract, getLsbD_extract, getLsbD_insert8 _ _ _ (by omega), if_neg (by omega)]

/-- On a clear field Insert8 is the shift composition (R84). -/
theorem insert8_of_clear {a : Acc} {i : Nat} (hi : i ≤ 2) (b : Byte) (hclear : extract a i 8 = 0) :
    insert8 a i b = a ||| (b.setWidth 24 <<< (16 - 8 * i)) := by
  have hzero {k : Nat} (hlo : 16 - 8 * i ≤ k) (hhi : k < 16 - 8 * i + 8) : a.getLsbD k = false := by
    have hbit : (extract a i 8).getLsbD (k - (16 - 8 * i)) = false := by rw [hclear]; exact BitVec.getLsbD_zero
    rw [getLsbD_extract, decide_eq_true (by omega), Bool.true_and] at hbit
    rwa [show 24 - 8 * (i + 1) + (k - (16 - 8 * i)) = k by omega] at hbit
  refine BitVec.eq_of_getLsbD_eq fun k hk => ?_
  have hin : k - (16 - 8 * i) < 24 := by omega
  simp only [getLsbD_insert8 _ _ _ hk, BitVec.getLsbD_or, BitVec.getLsbD_shiftLeft, BitVec.getLsbD_setWidth, hk, hin,
    decide_true, Bool.true_and]
  split
  case isTrue h => rw [hzero h.1 h.2, Bool.false_or, decide_eq_false (Nat.not_lt_of_le h.1), Bool.not_false, Bool.true_and]
  case isFalse h =>
    rcases Nat.lt_or_ge k (16 - 8 * i) with hlow | hlow
    · rw [decide_eq_true hlow, Bool.not_true, Bool.false_and, Bool.or_false]
    · rw [BitVec.getLsbD_of_ge b _ (by omega), Bool.and_false, Bool.or_false]

/-- Settles O21: each bit of Insert8, and from the bits its two laws. -/
theorem insertByteReplacesOneField : Obligations.InsertByteReplacesOneField := by
  intro a i b hi
  refine ⟨fun k hk => ?_, insert8_of_clear hi b, extract_insert8_same a hi b,
    fun j hj hne => extract_insert8_ne a hi hj hne b⟩
  rw [getLsbD_insert8 a i b hk]
  simp only [show k < 16 - 8 * i + 8 ↔ k ≤ 23 - 8 * i by omega]

/-- Settles O26: no case of CLRA raises anything, so its pseudocode is its whole effect (R80). -/
theorem clraClearsTheGroup : Obligations.ClraClearsTheGroup := ⟨rfl, fun _ _ => rfl⟩

/-- Settles O27: below count 3 and from it on, PK8 is one case of its pseudocode each. -/
theorem packByteCommand : Obligations.PackByteCommand := fun b _ =>
  ⟨formatI_eq_add 0x7 b, fun _ =>
    ⟨fun h => congrArg Flow.outcome (packByte_of_lt h), fun h => congrArg Flow.outcome (packByte_of_full h)⟩⟩

/-- The bytes of a group of up to three, read back from ACC (R11, R122). -/
theorem extract8_bytes24 (g : List Byte) {k : Nat} (hk : k < 3) :
    extract (bytes24 (g.getD 0 0) (g.getD 1 0) (g.getD 2 0)) k 8 = g.getD k 0 := by
  rw [← insert8_third, ← insert8_second, ← insert8_first]
  interval_cases k
  · rw [extract_insert8_ne, extract_insert8_ne, extract_insert8_same] <;> decide
  · rw [extract_insert8_ne, extract_insert8_same] <;> decide
  · rw [extract_insert8_same]; decide

end Sys2Proof.Machine
end

section
namespace Sys2Proof.Machine

/-! ### EMS (40_encoder.md R82) -/

/-- The four symbols of a group that is not empty: the padding symbol from field `Meaningful(CNT)` on, which is 2, 3, 4 for a count of
1, 2, 3 (R82, R85). -/
theorem groupSymbols_of_pos (a : Acc) {n : Nat} (hn : 0 < n) :
    groupSymbols a n =
      [valToSym (extract a 0 6), valToSym (extract a 1 6),
       if 2 ≤ n then valToSym (extract a 2 6) else padSym, if 3 ≤ n then valToSym (extract a 3 6) else padSym] := by
  have h0 : 0 < meaningful n := by unfold meaningful; omega
  have h1 : 1 < meaningful n := by unfold meaningful; omega
  have h2 : 2 < meaningful n ↔ 2 ≤ n := by unfold meaningful; omega
  have h3 : 3 < meaningful n ↔ 3 ≤ n := by unfold meaningful; omega
  show [_, _, _, _] = _
  simp only [h0, h1, h2, h3, if_true]

/-- A list written from DSTPOS on where it fits, in the form of the statements. -/
theorem wrote_writeAll {s t : State} {vs : List Byte} (hroom : vs.length ≤ s.room)
    (hdst : t.dst = s.dst.writeAll s.dstpos.toNat vs) (hpos : t.dstpos = forward s.dstpos vs.length) : wrote s t vs :=
  ⟨by rw [hpos]; exact toNat_forward_dstpos hroom, fun p => by rw [hdst]; exact Memory.read_writeAll ..⟩

/-- A list written as far as it fits, in the form of the statements. -/
theorem wrote_writeAll_take {s t : State} {vs : List Byte} (hroom : s.room < vs.length)
    (hdst : t.dst = s.dst.writeAll s.dstpos.toNat (vs.take s.room)) (hpos : t.dstpos = forward s.dstpos s.room) :
    wrote s t (vs.take s.room) := by
  have hlen : (vs.take s.room).length = s.room := List.length_take_of_le (Nat.le_of_lt hroom)
  exact wrote_writeAll hlen.le hdst (by rw [hlen]; exact hpos)

/-- Where the room is used up, DSTPOS stands at the failing position (R43, R159). -/
theorem toNat_forward_room (s : State) : (forward s.dstpos s.room).toNat = max s.dstpos.toNat s.dstcap.toNat := by
  rw [toNat_forward_dstpos (Nat.le_refl _)]; omega

/-- Settles O29: the three things EMS can do, told apart by CNT and the room. -/
theorem emitSymbolsCommand : Obligations.EmitSymbolsCommand := by
  refine ⟨rfl, fun s _ => ?_⟩
  have hsymbols (h0 : s.cnt ≠ 0) := groupSymbols_of_pos s.acc (Nat.pos_of_ne_zero fun h => h0 (BitVec.eq_of_toNat_eq h))
  rcases emitSymbols_cases s with ⟨hc, he⟩ | ⟨hc, hroom, he⟩ | ⟨hc, hroom, he⟩ <;> have he := congrArg Flow.outcome he
  · exact ⟨fun _ => he, fun h0 h4 => absurd hc (not_or.2 ⟨h0, h4⟩), fun h0 h4 => absurd hc (not_or.2 ⟨h0, h4⟩)⟩
  · refine ⟨fun h => absurd h hc, fun h0 _ _ => ⟨_, he, rfl, ?_⟩, fun _ _ h => absurd h (Nat.not_lt_of_le hroom)⟩
    exact wrote_writeAll hroom (by rw [hsymbols h0]; rfl) rfl
  · refine ⟨fun h => absurd h hc, fun _ _ h => absurd h (Nat.not_le_of_lt hroom), fun h0 _ _ =>
      ⟨_, he, rfl, toNat_forward_room s, ?_⟩⟩
    exact wrote_writeAll_take hroom (by rw [hsymbols h0]; rfl) rfl

end Sys2Proof.Machine
end

section
namespace Sys2Proof.Machine

/-! ### The loops of ENC and DEC (40_encoder.md R83, 41_decoder.md R102) -/

/-- Before the end of the source `body` consumes at least one element and ends, normally or by a raise. -/
def ConsumesSource (body : State → Flow) : Prop :=
  ∀ s : State, s.srcpos.toNat < s.src.length →
    ∃ t, (body s = .running t ∨ body s = .ended t) ∧
      s.srcpos.toNat < t.srcpos.toNat ∧ t.srcpos.toNat ≤ s.src.length ∧ t.src = s.src

/-- Elements remain exactly before the end of the source. -/
theorem remaining_ne_nil_iff (s : State) : s.remaining ≠ [] ↔ s.srcpos.toNat < s.src.length := by
  simp [State.remaining]

/-- The cursor after the reads of one group of at most `n` elements. -/
theorem toNat_forward_group {s : State} (h : s.srcpos.toNat < s.src.length) {n : Nat} (hn : 0 < n) :
    s.srcpos.toNat < (forward s.srcpos (min s.remaining.length n)).toNat ∧
      (forward s.srcpos (min s.remaining.length n)).toNat ≤ s.src.length := by
  have hlen := remaining_length h.le
  rw [toNat_forward_srcpos (Nat.min_le_left _ _)]
  omega

/-- A group of ENC reads up to three bytes, whatever the room for its symbols (R83). -/
theorem encodeGroup_consumesSource : ConsumesSource encodeGroup := by
  intro s h
  obtain ⟨fits, short⟩ := encodeGroup_eq h.le ((remaining_ne_nil_iff s).2 h)
  obtain ⟨hlt, hle⟩ := toNat_forward_group h (n := 3) (by decide)
  rcases Nat.lt_or_ge s.room 4 with hroom | hroom
  · exact ⟨_, .inr (short hroom), hlt, hle, rfl⟩
  · exact ⟨_, .inl (fits hroom), hlt, hle, rfl⟩

/-- A group of DEC reads up to four symbols, whatever the room for its bytes (R102). -/
theorem decodeGroup_consumesSource : ConsumesSource decodeGroup := by
  intro s h
  obtain ⟨fits, short⟩ := decodeGroup_eq h.le _ rfl ((remaining_ne_nil_iff s).2 h)
  obtain ⟨hlt, hle⟩ := toNat_forward_group h (n := 4) (by decide)
  rcases Nat.lt_or_ge s.room (firstBytes s.remaining).length with hroom | hroom
  · exact ⟨_, .inr (short hroom), hlt, hle, rfl⟩
  · exact ⟨_, .inl (fits hroom), hlt, hle, rfl⟩

namespace ConsumesSource

variable {body : State → Flow} {s t : State}

/-- Any two numbers of tests above the number of remaining elements give the same loop (R191; log 17). -/
theorem whileSource_congr (hb : ConsumesSource body) {m : Nat} : ∀ {n : Nat} {s : State}, s.srcpos.toNat ≤ s.src.length →
    s.src.length - s.srcpos.toNat < m → s.src.length - s.srcpos.toNat < n →
      whileSource body m s = whileSource body n s := by
  induction m with
  | zero => intro n s _ hm; exact absurd hm (Nat.not_lt_zero _)
  | succ m ih =>
    intro n s h hm hn
    obtain ⟨n, rfl⟩ := Nat.exists_eq_succ_of_ne_zero (Nat.ne_zero_of_lt hn)
    rcases h.eq_or_lt with hend | hlt
    · rw [whileSource_atEnd hend, whileSource_atEnd hend]
    rw [whileSource_of_more hlt.ne, whileSource_of_more hlt.ne]
    obtain ⟨t, ht | ht, hpos, hle, hsrc⟩ := hb s hlt <;> rw [ht]
    · rw [← hsrc] at hle hm hn
      exact ih hle (by omega) (by omega)
    · rfl

/-- A loop that runs to its end with enough tests leaves the source at its end (R83, R102). -/
theorem srcAtEnd_of_whileSource (hb : ConsumesSource body) {m : Nat} : ∀ {s : State}, s.srcpos.toNat ≤ s.src.length →
    s.src.length - s.srcpos.toNat < m → whileSource body m s = .running t → srcAtEnd t = true := by
  induction m with
  | zero => intro s _ hm; exact absurd hm (Nat.not_lt_zero _)
  | succ m ih =>
    intro s h hm e
    rcases h.eq_or_lt with hend | hlt
    · cases (whileSource_atEnd hend).symm.trans e
      exact (srcAtEnd_iff _).2 hend
    rw [whileSource_of_more hlt.ne] at e
    obtain ⟨u, hu | hu, hpos, hle, hsrc⟩ := hb s hlt <;> rw [hu] at e
    · rw [← hsrc] at hle hm
      exact ih hle (by omega) e
    · cases e

/-- `sourceFuel` tests are enough (log 17). -/
theorem whileSource_add (hb : ConsumesSource body) (h : s.srcpos.toNat ≤ s.src.length) (more : Nat) :
    whileSource body (sourceFuel s + more) s = whileSource body (sourceFuel s) s :=
  hb.whileSource_congr h (by unfold sourceFuel; omega) (Nat.lt_succ_self _)

/-- A command that is the loop: one turn, and then the command again unless a fault has ended it. -/
theorem outcome_turn (hb : ConsumesSource body) (h : s.srcpos.toNat < s.src.length) :
    ∃ t, s.srcpos.toNat < t.srcpos.toNat ∧ t.srcpos.toNat ≤ s.src.length ∧ t.src = s.src ∧
      ((body s = .running t ∧
          (whileSource body (sourceFuel s) s).outcome = (whileSource body (sourceFuel t) t).outcome) ∨
        (body s = .ended t ∧ (whileSource body (sourceFuel s) s).outcome = .next t)) := by
  obtain ⟨t, ht, hpos, hle, hsrc⟩ := hb s h
  have hloop : whileSource body (sourceFuel s) s = (body s).andThen (whileSource body (s.src.length - s.srcpos.toNat)) :=
    whileSource_of_more h.ne
  refine ⟨t, hpos, hle, hsrc, ht.imp (fun ht => ⟨ht, ?_⟩) fun ht => ⟨ht, ?_⟩⟩ <;> rw [hloop, ht]
  · refine congrArg Flow.outcome (hb.whileSource_congr (by rwa [hsrc]) ?_ (Nat.lt_succ_self _))
    rw [hsrc]; omega
  · rfl

end ConsumesSource

/-- Settles O47: each group of either command consumes an element, so the tests do not run out. -/
theorem loopsEndBeforeTheCutOff : Obligations.LoopsEndBeforeTheCutOff := fun _ more h =>
  ⟨encodeGroup_consumesSource.whileSource_add h more, decodeGroup_consumesSource.whileSource_add h more,
    fun _ => encodeGroup_consumesSource.srcAtEnd_of_whileSource h (Nat.lt_succ_self _),
    fun _ => decodeGroup_consumesSource.srcAtEnd_of_whileSource h (Nat.lt_succ_self _)⟩

/-- At the end of the source ENC changes nothing (R83). -/
theorem execEnc_atEnd {s : State} (h : s.srcpos.toNat = s.src.length) : exec .enc s = .next s :=
  congrArg Flow.outcome (whileSource_atEnd h)

/-- Before the end of the source ENC is one group and then, unless a fault has ended it, ENC again (R83). -/
theorem execEnc_turn {s : State} (h : s.srcpos.toNat < s.src.length) :
    ∃ t, s.srcpos.toNat < t.srcpos.toNat ∧ t.srcpos.toNat ≤ s.src.length ∧ t.src = s.src ∧
      ((encodeGroup s = .running t ∧ exec .enc s = exec .enc t) ∨ (encodeGroup s = .ended t ∧ exec .enc s = .next t)) :=
  encodeGroup_consumesSource.outcome_turn h

/-- Before the end of the source DEC is one group and then, unless a fault has ended it, DEC again (R102). -/
theorem execDec_turn {s : State} (h : s.srcpos.toNat < s.src.length) :
    ∃ t, s.srcpos.toNat < t.srcpos.toNat ∧ t.srcpos.toNat ≤ s.src.length ∧ t.src = s.src ∧
      ((decodeGroup s = .running t ∧ exec .dec s = exec .dec t) ∨ (decodeGroup s = .ended t ∧ exec .dec s = .next t)) :=
  decodeGroup_consumesSource.outcome_turn h

/-- Settles O46: one turn of each loop. -/
theorem streamCommandsAreTheirLoops : Obligations.StreamCommandsAreTheirLoops := fun _ _ =>
  ⟨fun hend => ⟨execEnc_atEnd hend, congrArg Flow.outcome (whileSource_atEnd hend)⟩,
    fun hlt => ⟨execEnc_turn hlt, execDec_turn hlt⟩⟩

end Sys2Proof.Machine
end

section
namespace Sys2Proof.Machine

/-! ### The whole of ENC (40_encoder.md R83, R86, R87) -/

/-- Settles O35: the end of the loop of ENC with room for the text. -/
theorem encodeCommandWritesTheText : Obligations.EncodeCommandWritesTheText := by
  refine ⟨rfl, fun s _ h hroom => ?_⟩
  have hend := (encodeLoop_eq _ s h (remaining_lt_sourceFuel s)).1 hroom
  have htext : (encodedText s.remaining).length ≤ s.room := by rwa [encodedText_length]
  refine ⟨_, congrArg Flow.outcome hend, wrote_writeAll htext rfl rfl, rfl, forward_remaining h, fun hr => ?_, fun hr => ?_⟩
  · rw [hr]; simp [encodeRegisters, encodedText, Memory.writeAll]
  · simp only [encodeRegisters, if_neg hr]
    refine ⟨trivial, toNat_ofNat_cnt ?_, fun k hk => extract8_bytes24 _ hk⟩
    exact (lastGroup_length_le 3 (by decide) _).trans (by decide)

/-- Settles O36: the end of the loop of ENC in the group that does not fit. -/
theorem encodeWithoutRoomIsPrecise : Obligations.EncodeWithoutRoomIsPrecise := by
  intro s _ h hroom
  have hend := (encodeLoop_eq _ s h (remaining_lt_sourceFuel s)).2 hroom
  have htext : s.room < (encodedText s.remaining).length := by rwa [encodedText_length]
  have hlen : (groupAt 3 (s.room / 4) s.remaining).length = min 3 (s.remaining.length - 3 * (s.room / 4)) := by
    rw [groupAt, List.length_take, List.length_drop]
  have hread : 3 * (s.room / 4) + (groupAt 3 (s.room / 4) s.remaining).length ≤ s.remaining.length := by
    unfold ceilDiv at hroom; omega
  refine ⟨_, _, rfl, congrArg Flow.outcome hend, wrote_writeAll_take htext rfl rfl, rfl, toNat_forward_room s, ?_,
    toNat_ofNat_cnt ?_, fun k hk => extract8_bytes24 _ hk⟩
  · rw [Nat.add_assoc]; exact toNat_forward_srcpos hread
  · exact hlen.le.trans (by omega)

/-- ENC of a whole source for whose text there is room (R86). -/
theorem execEnc_wholeSource {s : State} (herr : s.err = 0) (hpos : s.srcpos = 0)
    (hroom : 4 * ceilDiv s.src.length 3 ≤ s.room) :
    ∃ t, exec .enc s = .next t ∧ t.status = s.status ∧ wrote s t (encodedText s.src.elements) := by
  have hrem : s.remaining = s.src.elements := by rw [State.remaining, hpos]; rfl
  obtain ⟨t, ht, hw, hframe, _⟩ :=
    encodeCommandWritesTheText.2 s herr (by rw [hpos]; exact Nat.zero_le _) (by rwa [hrem])
  exact ⟨t, ht, by rw [hframe], hrem ▸ hw⟩

/-- Settles O39: ENC writes the text, whose length is that of R86. -/
theorem encodeLengthLaw : Obligations.EncodeLengthLaw := by
  intro s herr hpos hroom
  obtain ⟨t, ht, hstatus, hdstpos, _⟩ := execEnc_wholeSource herr hpos hroom
  exact ⟨t, ht, hstatus, by rw [hdstpos, encodedText_length]⟩

/-! ### The alphabet of the text (40_encoder.md R87) -/

/-- An element that ENC and EMS may write (R87). -/
def isTextSymbol (v : Byte) : Prop := v ∈ symbols.alpha.toList ∨ v = padSym

theorem isTextSymbol_valToSym (v : Value6) : isTextSymbol (valToSym v) :=
  .inl (Vector.mem_toList_iff.2 (Vector.getElem_mem v.isLt))

/-- PADSYM is none of the 64 codes (R26). -/
theorem valToSym_ne_padSym : ∀ v : Value6, valToSym v ≠ padSym := by decide

theorem isTextSymbol_of_mem_groupSymbols {a : Acc} {n : Nat} {v : Byte} (h : v ∈ groupSymbols a n) : isTextSymbol v := by
  obtain ⟨k, _, rfl⟩ := List.mem_map.1 h
  split
  · exact isTextSymbol_valToSym _
  · exact .inr rfl

theorem isTextSymbol_of_mem_encodedText {r : List Byte} {v : Byte} (h : v ∈ encodedText r) : isTextSymbol v := by
  induction r using encodedText.induct with
  | case1 => cases h
  | case2 b0 => rw [← groupSymbols_one] at h; exact isTextSymbol_of_mem_groupSymbols h
  | case3 b0 b1 => rw [← groupSymbols_two] at h; exact isTextSymbol_of_mem_groupSymbols h
  | case4 b0 b1 b2 rest ih =>
    rw [encodedText, ← groupSymbols_three] at h
    exact (List.mem_append.1 h).elim isTextSymbol_of_mem_groupSymbols ih

/-- What EMS writes, with or without room (R82). -/
theorem execEms_wrote {s t : State} (e : exec .ems s = .next t) :
    ∃ vs, wrote s t vs ∧ ∀ v ∈ vs, v ∈ groupSymbols s.acc s.cnt.toNat := by
  rcases emitSymbols_cases s with ⟨_, he⟩ | ⟨_, hroom, he⟩ | ⟨_, hroom, he⟩ <;>
    cases (congrArg Flow.outcome he).symm.trans e
  · exact ⟨[], wrote_nil rfl rfl, fun _ h => nomatch h⟩
  · exact ⟨_, wrote_writeAll (by rwa [groupSymbols_length]) rfl rfl, fun _ h => h⟩
  · exact ⟨_, wrote_writeAll_take (by rwa [groupSymbols_length]) rfl rfl, fun _ h => List.mem_of_mem_take h⟩

/-- What ENC writes, with or without room (R83). -/
theorem execEnc_wrote {s t : State} (e : exec .enc s = .next t) :
    ∃ vs, wrote s t vs ∧ ∀ v ∈ vs, v ∈ encodedText s.remaining :=
  ⟨_, wrote_of_tookElements (exec_takes (srcpos_le_of_execEnc e) e), fun _ h => List.mem_of_mem_take h⟩

/-- A position of the stretch that was written holds one of its elements. -/
theorem exists_read_of_wrote {s t : State} {vs : List Byte} (hw : wrote s t vs) {p : Nat} (hlo : s.dstpos.toNat ≤ p)
    (hhi : p < t.dstpos.toNat) : ∃ v ∈ vs, t.dst.read p = some v := by
  obtain ⟨hpos, hread⟩ := hw
  have hlt : p - s.dstpos.toNat < vs.length := by omega
  exact ⟨_, List.getElem_mem hlt, by rw [hread, if_pos (by omega), List.getElem?_eq_getElem hlt]⟩

/-- The padding symbol stands only at the last positions of the text, 0, 2 or 1 of them (R82, R87). -/
theorem encodedText_eq_padSym_iff (r : List Byte) {k : Nat} (hk : k < 4 * ceilDiv r.length 3) :
    (encodedText r)[k]? = some padSym ↔ 4 * ceilDiv r.length 3 ≤ k + textPadding r.length := by
  induction r using encodedText.induct generalizing k with
  | case1 => exact absurd hk (by simp [ceilDiv])
  | case2 b0 =>
    have hk : k < 4 := by simpa [ceilDiv] using hk
    interval_cases k <;> simp [encodedText, ceilDiv, textPadding, valToSym_ne_padSym]
  | case3 b0 b1 =>
    have hk : k < 4 := by simpa [ceilDiv] using hk
    interval_cases k <;> simp [encodedText, ceilDiv, textPadding, valToSym_ne_padSym]
  | case4 b0 b1 b2 rest ih =>
    have hceil : ceilDiv (b0 :: b1 :: b2 :: rest).length 3 = ceilDiv rest.length 3 + 1 := by
      simp only [ceilDiv, List.length_cons]; omega
    have hpad : textPadding (b0 :: b1 :: b2 :: rest).length = textPadding rest.length := by
      simp only [textPadding, List.length_cons]; omega
    have hrest : textPadding rest.length ≤ 4 * ceilDiv rest.length 3 := by
      simp only [textPadding, ceilDiv]; omega
    rw [hceil] at hk ⊢
    rw [hpad, encodedText]
    rcases Nat.lt_or_ge k 4 with hfirst | hlater
    · have hno : ¬ 4 * (ceilDiv rest.length 3 + 1) ≤ k + textPadding rest.length := by omega
      refine iff_of_false ?_ hno
      interval_cases k <;> simp [valToSym_ne_padSym]
    · rw [List.getElem?_append_right (by simpa using hlater)]
      refine (ih (by simp; omega)).trans ?_
      simp; omega

/-- Settles O41: what either command writes is taken from symbols of the alphabet and padding symbols; the text by O35. -/
theorem encoderOutputIsInTheAlphabet : Obligations.EncoderOutputIsInTheAlphabet := by
  refine ⟨fun i s t hi e p hlo hhi => ?_, fun s herr hpos hroom => ?_⟩
  · have hwrote : ∃ vs, wrote s t vs ∧ ∀ v ∈ vs, isTextSymbol v := by
      rcases hi with rfl | rfl
      · exact (execEnc_wrote e).imp fun _ hw => ⟨hw.1, fun v hv => isTextSymbol_of_mem_encodedText (hw.2 v hv)⟩
      · exact (execEms_wrote e).imp fun _ hw => ⟨hw.1, fun v hv => isTextSymbol_of_mem_groupSymbols (hw.2 v hv)⟩
    obtain ⟨vs, hw, hall⟩ := hwrote
    obtain ⟨v, hv, hread⟩ := exists_read_of_wrote hw hlo hhi
    exact ⟨v, hread, hall v hv⟩
  · obtain ⟨t, ht, _, _, hread⟩ := execEnc_wholeSource herr hpos hroom
    refine ⟨t, ht, fun k hk => ?_⟩
    have hin : k < (encodedText s.src.elements).length := by rwa [encodedText_length]
    rw [hread, if_pos ⟨Nat.le_add_right _ _, Nat.add_lt_add_left hin _⟩, Nat.add_sub_cancel_left]
    exact encodedText_eq_padSym_iff _ hk

end Sys2Proof.Machine
end

section
namespace Sys2Proof.Machine

/-! ### Commands issued one by one (43_system.md R144, R160) -/

/-- Runs of steps one after the other. -/
theorem stepsTo_trans {m n : Nat} {s t u : State} (h : stepsTo m s t) (k : stepsTo n t u) : stepsTo (m + n) s u := by
  induction m generalizing s with
  | zero => obtain rfl : s = t := h; rwa [Nat.zero_add]
  | succ m ih =>
    obtain ⟨v, hv, hrest⟩ := h
    rw [Nat.succ_add]
    exact ⟨v, hv, ih hrest⟩

/-- A first step and the steps after it. -/
theorem stepsTo_cons {n : Nat} {s t u : State} (h : step s = .next t) (k : stepsTo n t u) : stepsTo (n + 1) s u := ⟨t, h, k⟩

theorem issues_append (cs ds : List Instr) : issues (cs ++ ds) = issues cs ++ issues ds := List.map_append

/-- With no fault pending an issued command runs (R144). -/
theorem step_issue {s : State} {i : Instr} {rest : List HostAction} (herr : s.err = 0) :
    step { s with inbox := .issue (encode i) :: rest } = exec i { s with inbox := rest } :=
  issueWord_of_ok (s := { s with inbox := rest }) (dropped_of_err_zero herr) (decode_eq_ok_iff.2 rfl)

/-- No other command has the word of CLRF (R63). -/
theorem encode_ne_clrfWord {i : Instr} (hi : i ≠ .clrf) : encode i ≠ clrfWord := by
  intro h
  have hword : decode clrfWord = .ok i := decode_eq_ok_iff.2 h.symm
  exact hi (Except.ok.inj (hword.symm.trans (by decide)))

/-- While a fault is pending a list of commands without CLRF is dropped (R160). -/
theorem stepsTo_of_pending {s : State} (herr : s.err ≠ 0) : ∀ {cs : List Instr}, .clrf ∉ cs →
    stepsTo cs.length { s with inbox := issues cs } { s with inbox := [] }
  | [], _ => rfl
  | c :: cs, hcs => by
    rw [List.mem_cons, not_or] at hcs
    obtain ⟨hc, hrest⟩ := hcs
    have hdrop : dropped (encode c) { s with inbox := issues cs } = true :=
      dropped_of_pending herr (encode_ne_clrfWord (Ne.symm hc))
    exact stepsTo_cons (issueWord_of_dropped hdrop) (stepsTo_of_pending herr hrest)

/-! ### The group commands of ENC (40_encoder.md R88) -/

/-- ACC after PK8 of each byte of a list, the first of them into field `n` (R81). -/
def insertBytes : Acc → Nat → List Byte → Acc
  | a, _, [] => a
  | a, n, b :: g => insertBytes (insert8 a n b) (n + 1) g

/-- A group packed into a clear accumulator (R83). -/
theorem insertBytes_clear : ∀ {g : List Byte}, g.length ≤ 3 →
    insertBytes 0 0 g = bytes24 (g.getD 0 0) (g.getD 1 0) (g.getD 2 0)
  | [], _ => by decide
  | [b0], _ => insert8_first b0
  | [b0, b1], _ => (congrArg (insert8 · 1 b1) (insert8_first b0)).trans (insert8_second b0 b1)
  | [b0, b1, b2], _ => by
    have htwo := (congrArg (insert8 · 1 b1) (insert8_first b0)).trans (insert8_second b0 b1)
    exact (congrArg (insert8 · 2 b2) htwo).trans (insert8_third b0 b1 b2)

/-- PK8 of each byte of a list for which the group has space, step by step (R81). -/
theorem stepsTo_pk8 {rest : List HostAction} : ∀ {g : List Byte} {s : State}, s.err = 0 → s.cnt.toNat + g.length ≤ 3 →
    stepsTo g.length { s with inbox := issues (g.map .pk8) ++ rest }
      { s with acc := insertBytes s.acc s.cnt.toNat g, cnt := s.cnt + BitVec.ofNat 3 g.length, inbox := rest }
  | [], s, _, _ => by simp [stepsTo, issues, insertBytes]
  | b :: g, s, herr, hlen => by
    rw [List.length_cons] at hlen
    have hfirst : step { s with inbox := issues ((b :: g).map .pk8) ++ rest } =
        .next { s with acc := insert8 s.acc s.cnt.toNat b, cnt := s.cnt + 1, inbox := issues (g.map .pk8) ++ rest } :=
      (step_issue herr).trans (congrArg Flow.outcome (packByte_of_lt (by simp only; omega)))
    have hcnt := toNat_cnt_succ (c := s.cnt) (by omega)
    have hothers := stepsTo_pk8 (rest := rest) (g := g) (s := { s with acc := insert8 s.acc s.cnt.toNat b, cnt := s.cnt + 1 })
      herr (by simp only [hcnt]; omega)
    simp only [hcnt] at hothers
    refine stepsTo_cons hfirst ?_
    rw [insertBytes, List.length_cons, Nat.add_comm g.length, BitVec.ofNat_add, ← BitVec.add_assoc]
    exact hothers

/-- The state that holds a group of bytes: what CLRA and PK8 of each of them leave (R80, R81). -/
def holdGroup (s : State) (g : List Byte) : State :=
  { s with acc := bytes24 (g.getD 0 0) (g.getD 1 0) (g.getD 2 0), cnt := BitVec.ofNat 3 g.length, padc := 0 }

/-- CLRA and PK8 of each byte of a group, step by step (R80, R81). -/
theorem stepsTo_holdGroup {s : State} (herr : s.err = 0) {g : List Byte} (hlen : g.length ≤ 3) (rest : List HostAction) :
    stepsTo (g.length + 1) { s with inbox := issues (.clra :: g.map .pk8) ++ rest } { holdGroup s g with inbox := rest } := by
  have hclear : step { s with inbox := issues (.clra :: g.map .pk8) ++ rest } =
      .next { clearGroup s with inbox := issues (g.map .pk8) ++ rest } := step_issue herr
  have hpack := stepsTo_pk8 (rest := rest) (g := g) (s := clearGroup s) herr (by simpa [clearGroup] using hlen)
  have hheld : ({ clearGroup s with acc := insertBytes 0 0 g, cnt := 0 + BitVec.ofNat 3 g.length, inbox := rest } : State) =
      { holdGroup s g with inbox := rest } := by
    rw [insertBytes_clear hlen, zero_add]; rfl
  exact stepsTo_cons hclear (hheld ▸ hpack)

/-- One group of ENC is EMS of the group that the reads leave (R83). -/
theorem encodeGroup_eq_emitSymbols {s : State} (h : s.srcpos.toNat ≤ s.src.length) :
    encodeGroup s = emitSymbols
      { holdGroup s (s.remaining.take 3) with srcpos := forward s.srcpos (min s.remaining.length 3) } := by
  have hget := getD_take_three s.remaining
  simp only [Prod.mk.injEq] at hget
  obtain ⟨h0, h1, h2⟩ := hget
  rw [encodeGroup, fillBytes h, andThen_running, h0, h1, h2, Nat.min_comm, ← List.length_take]; rfl

/-- EMS reads neither SRCPOS nor the waiting actions (R82). -/
theorem emitSymbols_elsewhere {s t : State} (e : (emitSymbols s).outcome = .next t) (pos : Cursor) (inbox : List HostAction) :
    (emitSymbols { s with srcpos := pos, inbox := inbox }).outcome = .next { t with srcpos := pos, inbox := inbox } := by
  by_cases hc : s.cnt = 0 ∨ s.cnt = 4
  · rw [emitSymbols, if_pos hc] at e ⊢
    cases e; rfl
  · rw [emitSymbols, if_neg hc] at e ⊢
    rcases Nat.lt_or_ge s.room (groupSymbols s.acc s.cnt.toNat).length with h | h
    · cases (congrArg Flow.outcome (dstWriteAll_of_short h)).symm.trans e
      exact congrArg Flow.outcome (dstWriteAll_of_short (s := { s with srcpos := pos, inbox := inbox }) h)
    · cases (congrArg Flow.outcome (dstWriteAll_of_fits h)).symm.trans e
      exact congrArg Flow.outcome (dstWriteAll_of_fits (s := { s with srcpos := pos, inbox := inbox }) h)

/-- The commands of one group, step by step, from a state with any SRCPOS and any actions behind them (R88). -/
theorem stepsTo_encodeGroup {s t : State} (herr : s.err = 0) (h : s.srcpos.toNat ≤ s.src.length)
    (e : (encodeGroup s).outcome = .next t) (pos : Cursor) (rest : List HostAction) :
    stepsTo (encodeGroupCommands (s.remaining.take 3)).length
      { s with srcpos := pos, inbox := issues (encodeGroupCommands (s.remaining.take 3)) ++ rest }
      { t with srcpos := pos, inbox := rest } := by
  generalize hg : s.remaining.take 3 = g
  have hlen : g.length ≤ 3 := by rw [← hg]; exact List.length_take_le 3 _
  have hinbox : issues (encodeGroupCommands g) ++ rest =
      issues (.clra :: g.map .pk8) ++ .issue (encode .ems) :: rest := by simp [issues, encodeGroupCommands]
  have hcount : (encodeGroupCommands g).length = g.length + 1 + 1 := by simp [encodeGroupCommands]
  have hemit : step { holdGroup s g with srcpos := pos, inbox := .issue (encode .ems) :: rest } =
      .next { t with srcpos := pos, inbox := rest } := by
    rw [encodeGroup_eq_emitSymbols h, hg] at e
    exact (step_issue (s := { holdGroup s g with srcpos := pos }) herr).trans (emitSymbols_elsewhere e pos rest)
  rw [hinbox, hcount]
  exact stepsTo_trans (stepsTo_holdGroup (s := { s with srcpos := pos }) herr hlen _) (stepsTo_cons hemit rfl)

/-- The commands of a list are those of its first group and those of the rest (R88). -/
theorem encodeCommands_split : ∀ {r : List Byte}, r ≠ [] →
    encodeCommands r = encodeGroupCommands (r.take 3) ++ encodeCommands (r.drop 3)
  | [_], _ => rfl
  | [_, _], _ => rfl
  | _ :: _ :: _ :: _, _ => rfl

theorem clrf_not_mem_encodeCommands (r : List Byte) : .clrf ∉ encodeCommands r := by
  induction r using encodeCommands.induct with
  | case1 => simp [encodeCommands]
  | case2 => simp [encodeCommands, encodeGroupCommands]
  | case3 => simp [encodeCommands, encodeGroupCommands]
  | case4 b0 b1 b2 rest ih => simpa [encodeCommands, encodeGroupCommands] using ih

/-- What one group that runs to its end leaves for the next one: no fault, and the elements behind it (R83). -/
theorem encodeGroup_running {s t : State} (h : s.srcpos.toNat < s.src.length) (e : encodeGroup s = .running t) :
    t.err = s.err ∧ t.remaining = s.remaining.drop 3 := by
  obtain ⟨fits, short⟩ := encodeGroup_eq h.le ((remaining_ne_nil_iff s).2 h)
  rcases Nat.lt_or_ge s.room 4 with hroom | hroom
  · cases (short hroom).symm.trans e
  · cases (fits hroom).symm.trans e
    exact ⟨rfl, src_drop_group s 3⟩

/-- A group that does not run to its end leaves `Capacity` (R83, R154). -/
theorem encodeGroup_ended {s t : State} (h : s.srcpos.toNat < s.src.length) (e : encodeGroup s = .ended t) : t.err = 4 := by
  obtain ⟨fits, short⟩ := encodeGroup_eq h.le ((remaining_ne_nil_iff s).2 h)
  rcases Nat.lt_or_ge s.room 4 with hroom | hroom
  · cases (short hroom).symm.trans e
    exact State.setErr_err _ _
  · cases (fits hroom).symm.trans e

/-- ENC and its group commands, from a state with any SRCPOS: group by group, and once a fault is pending the commands that are
left are dropped (R88, R160; log 11). -/
theorem execEnc_stepsTo {s : State} (herr : s.err = 0) (h : s.srcpos.toNat ≤ s.src.length) (pos : Cursor) :
    ∃ t, exec .enc s = .next t ∧
      stepsTo (encodeCommands s.remaining).length { s with srcpos := pos, inbox := issues (encodeCommands s.remaining) }
        { t with srcpos := pos, inbox := [] } := by
  rcases h.eq_or_lt with hend | hlt
  · have hr : s.remaining = [] := List.drop_eq_nil_of_le hend.ge
    rw [hr]
    exact ⟨s, execEnc_atEnd hend, rfl⟩
  have hr := (remaining_ne_nil_iff s).2 hlt
  rw [encodeCommands_split hr, issues_append, List.length_append]
  obtain ⟨u, _, hle, hsrc, ⟨hgroup, henc⟩ | ⟨hgroup, henc⟩⟩ := execEnc_turn hlt
  · obtain ⟨huerr, hrest⟩ := encodeGroup_running hlt hgroup
    have hless : u.remaining.length < s.remaining.length := by
      rw [hrest, List.length_drop]
      exact Nat.sub_lt (List.length_pos_iff.2 hr) (by decide)
    obtain ⟨t, ht, hsteps⟩ := execEnc_stepsTo (s := u) (huerr.trans herr) (by rwa [hsrc]) pos
    rw [hrest] at hsteps
    exact ⟨t, henc.trans ht, stepsTo_trans (stepsTo_encodeGroup herr h (congrArg Flow.outcome hgroup) pos _) hsteps⟩
  · have hfault : u.err ≠ 0 := by rw [encodeGroup_ended hlt hgroup]; decide
    exact ⟨u, henc, stepsTo_trans (stepsTo_encodeGroup herr h (congrArg Flow.outcome hgroup) pos _)
      (stepsTo_of_pending (s := { u with srcpos := pos }) hfault (clrf_not_mem_encodeCommands _))⟩
termination_by s.remaining.length

/-- Settles O43: from the state that has the commands waiting. -/
theorem encodeEqualsItsGroupCommands : Obligations.EncodeEqualsItsGroupCommands := by
  intro s herr h
  obtain ⟨t, ht, hsteps⟩ := execEnc_stepsTo herr h s.srcpos
  exact ⟨t, _, ht, hsteps, rfl⟩

end Sys2Proof.Machine
end

/-!
PROOFS of the statements about the decoder family (41_decoder.md).
DEC is its closed form `decodeLoop_eq`, or one turn after another of its loop; its group commands are run one step at a time.
-/

section
namespace Sys2Proof.Machine

/-! ### The group in ACC (41_decoder.md R105) -/

/-- The bits of Insert6 (R105). -/
theorem getLsbD_insert6 (a : Acc) (i : Nat) (v : Value6) {k : Nat} (hk : k < 24) :
    (insert6 a i v).getLsbD k =
      if 18 - 6 * i ≤ k ∧ k < 18 - 6 * i + 6 then v.getLsbD (k - (18 - 6 * i)) else a.getLsbD k :=
  getLsbD_replace a v (18 - 6 * i) hk

/-- The field that Insert6 wrote (R105). -/
theorem extract_insert6_same (a : Acc) {i : Nat} (hi : i ≤ 3) (v : Value6) : extract (insert6 a i v) i 6 = v := by
  refine BitVec.eq_of_getLsbD_eq fun k hk => ?_
  have hfield : 24 - 6 * (i + 1) = 18 - 6 * i := by omega
  rw [getLsbD_extract, hfield, getLsbD_insert6 _ _ _ (by omega), if_pos (by omega), decide_eq_true hk, Bool.true_and,
    Nat.add_sub_cancel_left]

/-- The fields that Insert6 leaves alone (R105). -/
theorem extract_insert6_ne (a : Acc) {i j : Nat} (hi : i ≤ 3) (hj : j ≤ 3) (hne : j ≠ i) (v : Value6) :
    extract (insert6 a i v) j 6 = extract a j 6 := by
  refine BitVec.eq_of_getLsbD_eq fun k hk => ?_
  rw [getLsbD_extract, getLsbD_extract, getLsbD_insert6 _ _ _ (by omega), if_neg (by omega)]

/-- Settles O22: each bit of Insert6, and from the bits its two laws. -/
theorem insertValueReplacesOneField : Obligations.InsertValueReplacesOneField := by
  intro a i v hi
  refine ⟨fun k hk => ?_, extract_insert6_same a hi v, fun j hj hne => extract_insert6_ne a hi hj hne v⟩
  rw [getLsbD_insert6 a i v hk]
  simp only [show k < 18 - 6 * i + 6 ↔ k ≤ 23 - 6 * i by omega]

/-- The values of a group of up to four symbols, read back from ACC; a missing symbol has the value of `A` (R11, R106, R122). -/
theorem extract6_groupValues (g : List Byte) {k : Nat} (hk : k < 4) :
    extract (groupValues g) k 6 = symbolValue (g.getD k 0x41) := by
  rw [← packedValue_getD, groupValues, ← insert6_fourth, ← insert6_third, ← insert6_second, ← insert6_first]
  interval_cases k
  · rw [extract_insert6_ne, extract_insert6_ne, extract_insert6_ne, extract_insert6_same] <;> decide
  · rw [extract_insert6_ne, extract_insert6_ne, extract_insert6_same] <;> decide
  · rw [extract_insert6_ne, extract_insert6_same] <;> decide
  · rw [extract_insert6_same]; decide

/-! ### PK6 (41_decoder.md R100) -/

/-- STATUS after the lookups of a list where no fault is pending (R22, R155). -/
theorem statusAll_of_err_zero {s : State} (herr : s.err = 0) (cs : List Byte) :
    statusAll cs s.status = statusWord (s.inv || cs.any invalidSymbol) 0 := by
  rw [statusAll_eq, show s.status.extractLsb' 0 4 = 0 from herr]; rfl

/-- STATUS after one lookup where no fault is pending (R22, R100). -/
theorem statusAfter_of_err_zero {s : State} (herr : s.err = 0) (c : Byte) :
    statusAfter c s.status = statusWord (s.inv || invalidSymbol c) 0 := by
  simpa [statusAll] using statusAll_of_err_zero herr [c]

/-- INVPOS after one lookup, in terms of the symbol (R23, R100). -/
theorem invposAfter_eq (c : Byte) (pos : Cursor) (inv : Bool) (q : Cursor) :
    invposAfter c pos inv q = if invalidSymbol c = true ∧ inv = false then pos else q := by
  simp only [invposAfter, lookupFails_eq, Bool.and_eq_true, Bool.not_eq_true']

/-- The pseudocode of PK6 below count 4 where no fault is pending, in terms of the symbol (R100). -/
theorem packSymbol_of_err_zero {s : State} (herr : s.err = 0) (hcnt : s.cnt.toNat < 4) (c : Byte) (pos : Cursor) :
    packSymbol c pos s = .running { s with
      padc   := if c = 0x3D then BitVec.ofNat 2 (min (s.padc.toNat + 1) 2) else 0
      status := statusWord (s.inv || invalidSymbol c) 0
      invpos := if invalidSymbol c = true ∧ s.inv = false then pos else s.invpos
      acc    := insert6 s.acc s.cnt.toNat (symbolValue c)
      cnt    := s.cnt + 1 } := by
  rw [packSymbol_of_lt hcnt, statusAfter_of_err_zero herr, invposAfter_eq, packedValue_eq]; rfl

/-- Settles O28: below count 4 and from it on, PK6 is one case of its pseudocode each, with CNT for the position. -/
theorem packSymbolCommand : Obligations.PackSymbolCommand := by
  refine fun c s => ⟨formatI_eq_add 0x8 c, fun herr => ⟨fun hcnt => ?_, fun hcnt => ?_, fun pos hcnt => ?_⟩⟩
  · rw [← BitVec.setWidth'_eq Config.three_le_CW]
    exact congrArg Flow.outcome (packSymbol_of_err_zero herr hcnt c _)
  · exact congrArg Flow.outcome (packSymbol_of_full hcnt)
  · exact packSymbol_of_err_zero herr hcnt c pos

/-! ### EMB (41_decoder.md R101) -/

theorem emitCount_le (fin : Bool) (padc : BitVec 2) : emitCount fin padc ≤ 3 := by
  unfold emitCount; split <;> omega

/-- Settles O30: the three things EMB can do, told apart by CNT and the room. -/
theorem emitBytesCommand : Obligations.EmitBytesCommand := by
  intro fin s
  refine ⟨by cases fin <;> rfl, fun _ => ?_⟩
  have hcount := emitCount_le fin s.padc
  have hbytes := groupBytes_take s.acc _ hcount
  rw [show (if fin then 3 - s.padc.toNat else 3) = emitCount fin s.padc from rfl]
  rcases emitBytes_cases fin s with ⟨hc, he⟩ | ⟨hc, hroom, he⟩ | ⟨hc, hroom, he⟩ <;> have he := congrArg Flow.outcome he
  · exact ⟨fun _ => he, fun h => absurd hc h, fun h => absurd hc h⟩
  · refine ⟨fun h => absurd h hc, fun _ _ => ⟨_, he, rfl, ?_⟩, fun _ h => absurd h (Nat.not_lt_of_le hroom)⟩
    rw [← hbytes]
    exact wrote_writeAll (by rwa [groupBytes_length]) rfl (by rw [groupBytes_length])
  · refine ⟨fun h => absurd h hc, fun _ h => absurd h (Nat.not_le_of_lt hroom), fun _ _ =>
      ⟨_, he, rfl, toNat_forward_room s, ?_⟩⟩
    have hfits : [extract s.acc 0 8, extract s.acc 1 8, extract s.acc 2 8].take s.room =
        (groupBytes s.acc (emitCount fin s.padc)).take s.room := by
      rw [hbytes, List.take_take, Nat.min_eq_left (Nat.le_of_lt hroom)]
    rw [hfits]
    exact wrote_writeAll_take (by rwa [groupBytes_length]) rfl rfl

end Sys2Proof.Machine
end

section
namespace Sys2Proof.Machine

/-! ### The whole of DEC (41_decoder.md R102, R106, R107) -/

/-- DEC with room for the bytes of what remains (R102). -/
theorem execDec_of_fits {s : State} (h : s.srcpos.toNat ≤ s.src.length) (hroom : (decodedBytes s.remaining).length ≤ s.room) :
    exec .dec s = .next (decodeFits s s.remaining) :=
  congrArg Flow.outcome ((decodeLoop_eq _ s _ rfl h (remaining_lt_sourceFuel s)).1 hroom)

/-- DEC without room for the bytes of what remains (R102, R159). -/
theorem execDec_of_short {s : State} (h : s.srcpos.toNat ≤ s.src.length) (hroom : s.room < (decodedBytes s.remaining).length) :
    exec .dec s = .next (decodeShort s s.remaining) :=
  congrArg Flow.outcome ((decodeLoop_eq _ s _ rfl h (remaining_lt_sourceFuel s)).2 hroom)

/-- STATUS.INV after the lookups of a list (R22). -/
theorem statusAll_inv (s : State) (cs : List Byte) :
    (statusAll cs s.status).getLsbD 4 = (s.inv || cs.any invalidSymbol) := by
  rw [statusAll_eq, statusWord_inv]; rfl

/-- INVPOS after the lookups of some of the symbols that remain (R23). -/
theorem invposAll_remaining {s : State} {cs : List Byte} (h : cs.length ≤ s.remaining.length) (q : Cursor) :
    (invposAll cs s.srcpos s.status q).toNat = invposAfterAll cs s.srcpos.toNat s.inv q.toNat :=
  invposAll_eq (limit := s.src.length) (h.trans (by simp [State.remaining])) s.src.fits s.status q

/-- Settles O37: the end of the loop of DEC with room for the bytes. -/
theorem decodeCommandWritesTheBytes : Obligations.DecodeCommandWritesTheBytes := by
  refine ⟨rfl, fun s herr h hroom => ⟨_, execDec_of_fits h hroom, ?_⟩⟩
  have hstatus := statusAll_of_err_zero herr s.remaining
  have hinvpos := invposAll_remaining (s := s) (Nat.le_refl _) s.invpos
  have hend := forward_remaining h
  by_cases hr : s.remaining = []
  · rw [hr] at hstatus hinvpos hend ⊢
    rw [decodeFits, if_pos rfl]
    refine ⟨wrote_nil rfl rfl, ?_, by simpa using hend, hinvpos, fun _ => rfl, fun hne => absurd rfl hne⟩
    rw [← hstatus]; rfl
  · rw [decodeFits, if_neg hr]
    refine ⟨wrote_writeAll hroom rfl rfl, by rw [← hstatus], hend, hinvpos, fun hnil => absurd hnil hr, fun _ =>
      ⟨padAll_eq _, toNat_ofNat_cnt (lastGroup_length_le 4 (by decide) _), fun k hk => extract6_groupValues _ hk⟩⟩

/-- The bytes of a list and the pad count of its last group make up three for each group (R107). -/
theorem decodedBytes_length_add_padCount {r : List Byte} (hr : r ≠ []) :
    (decodedBytes r).length + padCount (lastGroup 4 r) = 3 * ceilDiv r.length 4 := by
  have hpos : 0 < r.length := List.length_pos_iff.2 hr
  rw [decodedBytes_split r hr, List.length_append, firstBytes_length]
  rcases Nat.lt_or_ge 4 r.length with hlong | hshort
  · have hrest : r.drop 4 ≠ [] := by simpa using hlong
    have hlater := decodedBytes_length_add_padCount hrest
    rw [lastGroup_drop 4 (by decide) r hlong] at hlater
    rw [if_neg (by omega), Nat.add_assoc, hlater, List.length_drop]
    unfold ceilDiv; omega
  · have hceil : ceilDiv r.length 4 = 1 := by unfold ceilDiv; omega
    have hpad := padCount_le r
    rw [if_pos hshort, List.drop_eq_nil_of_le hshort, lastGroup_short 4 r hshort hr, hceil, decodedBytes, List.length_nil]
    omega
termination_by r.length

theorem decodedBytes_length_le (r : List Byte) : (decodedBytes r).length ≤ 3 * ceilDiv r.length 4 := by
  by_cases hr : r = []
  · subst hr; exact Nat.zero_le _
  · exact (Nat.le_add_right _ _).trans (decodedBytes_length_add_padCount hr).le

/-- Settles O38: the end of the loop of DEC in the group that does not fit. -/
theorem decodeWithoutRoomIsPrecise : Obligations.DecodeWithoutRoomIsPrecise := by
  intro s _ h hroom
  have hmore := hroom.trans_le (decodedBytes_length_le s.remaining)
  have hlen : (groupAt 4 (s.room / 3) s.remaining).length = min 4 (s.remaining.length - 4 * (s.room / 3)) := by
    rw [groupAt, List.length_take, List.length_drop]
  have hread : 4 * (s.room / 3) + (groupAt 4 (s.room / 3) s.remaining).length ≤ s.remaining.length := by
    unfold ceilDiv at hmore; omega
  have hinv := statusAll_inv s (s.remaining.take (4 * (s.room / 3) + 4))
  refine ⟨_, _, _, rfl, rfl, execDec_of_short h hroom, wrote_writeAll_take hroom rfl rfl, ?_, toNat_forward_room s, ?_,
    invposAll_remaining (List.length_take_le' ..) _, toNat_ofNat_cnt (hlen.le.trans (Nat.min_le_left _ _)), padAll_eq _,
    fun k hk => extract6_groupValues _ hk⟩
  · rw [← hinv]; rfl
  · rw [Nat.add_assoc]; exact toNat_forward_srcpos hread

/-- DEC of a whole source for whose bytes there is room (R102). -/
theorem execDec_wholeSource {s : State} (herr : s.err = 0) (hpos : s.srcpos = 0)
    (hroom : (decodedBytes s.src.elements).length ≤ s.room) :
    ∃ t, exec .dec s = .next t ∧ wrote s t (decodedBytes s.src.elements) ∧
      t.status = statusWord (s.inv || s.src.elements.any invalidSymbol) 0 ∧
      t.invpos.toNat = invposAfterAll s.src.elements 0 s.inv s.invpos.toNat := by
  have hrem : s.remaining = s.src.elements := by rw [State.remaining, hpos]; rfl
  have hzero : s.srcpos.toNat = 0 := by rw [hpos]; rfl
  obtain ⟨t, ht, hw, hframe, _, hinvpos, _⟩ :=
    decodeCommandWritesTheBytes.2 s herr (by rw [hzero]; exact Nat.zero_le _) (by rwa [hrem])
  rw [hrem] at hw hframe hinvpos
  rw [hzero] at hinvpos
  exact ⟨t, ht, hw, by rw [hframe], hinvpos⟩

/-- Settles O40: DEC writes the bytes, whose number with the pad count is that of R107. -/
theorem decodeLengthLaw : Obligations.DecodeLengthLaw := by
  intro s herr hpos hroom
  have hfits := (decodedBytes_length_le s.src.elements).trans hroom
  obtain ⟨t, ht, ⟨hdstpos, _⟩, hstatus, _⟩ := execDec_wholeSource herr hpos hfits
  have hlaw (hne : s.src.elements ≠ []) :
      t.dstpos.toNat + padCount (lastGroup 4 s.src.elements) = s.dstpos.toNat + 3 * ceilDiv s.src.length 4 := by
    rw [hdstpos, Nat.add_assoc, decodedBytes_length_add_padCount hne]
  refine ⟨t, ht, ?_, fun hnil => ?_, hlaw, fun hne hdvd => ?_⟩
  · rw [State.err, hstatus, statusWord_err]
  · rw [hnil] at hdstpos
    exact BitVec.eq_of_toNat_eq hdstpos
  · have hceil : ceilDiv s.src.length 4 = s.src.length / 4 := by unfold ceilDiv; omega
    rw [hlaw hne, hceil]

end Sys2Proof.Machine
end

section
namespace Sys2Proof.Machine

/-! ### The round trip (41_decoder.md R108) -/

/-- The value of a symbol that `ValToSym` gave (R121, R127). -/
theorem symbolValue_valToSym : ∀ v : Value6, symbolValue (valToSym v) = v := by decide

/-- The padding symbol packs as 0 (R100, R103). -/
theorem symbolValue_padSym : symbolValue padSym = 0 := by decide

/-- Neither a symbol of the alphabet nor the padding symbol is invalid (R100). -/
theorem not_invalidSymbol_of_isTextSymbol {c : Byte} (h : isTextSymbol c) : invalidSymbol c = false := by
  rcases h with hmem | rfl
  · simp [invalidSymbol, hmem]
  · decide

theorem any_invalidSymbol_encodedText (r : List Byte) : (encodedText r).any invalidSymbol = false := by
  rw [List.any_eq_false]
  exact fun c hc => Bool.eq_false_iff.1 (not_invalidSymbol_of_isTextSymbol (isTextSymbol_of_mem_encodedText hc))

/-- Where no symbol is invalid INVPOS keeps its value (R23). -/
theorem invposAfterAll_of_valid {cs : List Byte} (h : cs.any invalidSymbol = false) (p : Nat) (inv : Bool) (q : Nat) :
    invposAfterAll cs p inv q = q := by
  have hnone : cs.findIdx? invalidSymbol = none := by
    rw [List.findIdx?_eq_none_iff]
    exact fun c hc => Bool.eq_false_iff.2 (List.any_eq_false.1 h c hc)
  rw [invposAfterAll, hnone, ite_self]

/-- ACC is its four 6-bit fields (R11, R127). -/
theorem values24_extract (a : Acc) : values24 (extract a 0 6) (extract a 1 6) (extract a 2 6) (extract a 3 6) = a := by
  refine BitVec.eq_of_getLsbD_eq fun k hk => ?_
  have hfield {i : Nat} (hi : i ≤ 3) (hlo : 18 - 6 * i ≤ k) (hhi : k < 24 - 6 * i) :
      (extract a i 6).getLsbD (k - (18 - 6 * i)) = a.getLsbD k := by
    rw [getLsbD_extract, decide_eq_true (by omega), Bool.true_and]
    congr 1; omega
  rw [getLsbD_values24]
  split
  · exact hfield (i := 3) (by decide) (by omega) (by omega)
  split
  · exact hfield (i := 2) (by decide) (by omega) (by omega)
  split
  · exact hfield (i := 1) (by decide) (by omega) (by omega)
  · exact hfield (i := 0) (by decide) (by omega) (by omega)

/-- Three bytes are their four 6-bit slices (R82, R127). -/
theorem values24_slices (b0 b1 b2 : Byte) :
    values24 (b0.extractLsb' 2 6) (b0.extractLsb' 0 2 ++ b1.extractLsb' 4 4) (b1.extractLsb' 0 4 ++ b2.extractLsb' 6 2)
      (b2.extractLsb' 0 6) = bytes24 b0 b1 b2 := by
  rw [← extract6_bytes24_zero b0 b1 b2, ← extract6_bytes24_one b0 b1 b2, ← extract6_bytes24_two b0 b1 b2,
    ← extract6_bytes24_three b0 b1 b2, values24_extract]

/-- The first four symbols of a text pack into the bytes they were made from, with 0 for a missing byte (R108). -/
theorem groupValues_encodedText : ∀ {r : List Byte}, r ≠ [] →
    groupValues (encodedText r) = bytes24 (r.getD 0 0) (r.getD 1 0) (r.getD 2 0)
  | [b0], _ => by
    simpa [groupValues, encodedText, packedValue_eq, symbolValue_valToSym, symbolValue_padSym] using values24_slices b0 0 0
  | [b0, b1], _ => by
    simpa [groupValues, encodedText, packedValue_eq, symbolValue_valToSym, symbolValue_padSym] using values24_slices b0 b1 0
  | b0 :: b1 :: b2 :: rest, _ => by
    simpa [groupValues, encodedText, packedValue_eq, symbolValue_valToSym] using values24_slices b0 b1 b2

/-- The bytes in ACC (R101, R122). -/
theorem groupBytes_bytes24 (b0 b1 b2 : Byte) {n : Nat} (hn : n ≤ 3) : groupBytes (bytes24 b0 b1 b2) n = [b0, b1, b2].take n := by
  have h0 : extract (bytes24 b0 b1 b2) 0 8 = b0 := extract8_bytes24 [b0, b1, b2] (by decide)
  have h1 : extract (bytes24 b0 b1 b2) 1 8 = b1 := extract8_bytes24 [b0, b1, b2] (by decide)
  have h2 : extract (bytes24 b0 b1 b2) 2 8 = b2 := extract8_bytes24 [b0, b1, b2] (by decide)
  rw [groupBytes_take _ _ hn, h0, h1, h2]

/-- The first group of a text gives as many bytes as it was made from (R106, R108). -/
theorem firstBytes_length_encodedText : ∀ {r : List Byte}, r ≠ [] →
    (firstBytes (encodedText r)).length = min r.length 3
  | [b0], _ => by simp [firstBytes_length, encodedText, padCount, valToSym_ne_padSym]
  | [b0, b1], _ => by simp [firstBytes_length, encodedText, padCount, valToSym_ne_padSym]
  | [b0, b1, b2], _ => by simp [firstBytes_length, encodedText, padCount, valToSym_ne_padSym]
  | b0 :: b1 :: b2 :: b3 :: rest, _ => by
    have hlong : 4 < (encodedText (b0 :: b1 :: b2 :: b3 :: rest)).length := by
      rw [encodedText_length]; unfold ceilDiv; simp only [List.length_cons]; omega
    rw [firstBytes_length_of_lt _ hlong]; simp

/-- The first group of a text gives back the first three bytes, or those there are (R108). -/
theorem firstBytes_encodedText {r : List Byte} (hr : r ≠ []) : firstBytes (encodedText r) = r.take 3 := by
  have hcount := (firstBytes_length _).symm.trans (firstBytes_length_encodedText hr)
  rw [firstBytes, hcount, groupValues_encodedText hr, groupBytes_bytes24 _ _ _ (Nat.min_le_right _ _)]
  match r with
  | [_] => rfl
  | [_, _] => rfl
  | _ :: _ :: _ :: _ => simp

theorem encodedText_ne_nil {r : List Byte} (hr : r ≠ []) : encodedText r ≠ [] := by
  rw [encodedText_split r hr]
  exact List.append_ne_nil_of_left_ne_nil (List.ne_nil_of_length_eq_add_one (groupSymbols_length _ _)) _

/-- Decoding the text of a list gives the list (R108). -/
theorem decodedBytes_encodedText (r : List Byte) : decodedBytes (encodedText r) = r := by
  by_cases hr : r = []
  · subst hr; rfl
  have hpos : 0 < r.length := List.length_pos_iff.2 hr
  have hdrop : (encodedText r).drop 4 = encodedText (r.drop 3) := by
    rw [encodedText_split r hr, List.drop_left' (groupSymbols_length _ _)]
  rw [decodedBytes_split _ (encodedText_ne_nil hr), firstBytes_encodedText hr, hdrop, decodedBytes_encodedText (r.drop 3), List.take_append_drop]
termination_by r.length

/-- Settles O42: ENC writes the text, whose bytes are the source and whose symbols are all valid. -/
theorem decodeOfEncodeGivesTheSource : Obligations.DecodeOfEncodeGivesTheSource := by
  intro s herr hpos hroom
  obtain ⟨t, ht, _, hw⟩ := execEnc_wholeSource herr hpos hroom
  refine ⟨t, _, ht, hw, fun u huerr husrc hupos huroom => ?_⟩
  have hbytes : decodedBytes u.src.elements = s.src.elements := by rw [husrc, decodedBytes_encodedText]
  have hvalid : u.src.elements.any invalidSymbol = false := by rw [husrc, any_invalidSymbol_encodedText]
  obtain ⟨v, hv, hvw, hstatus, hinvpos⟩ := execDec_wholeSource huerr hupos (by rwa [hbytes])
  rw [hbytes] at hvw
  rw [hvalid, Bool.or_false, ← huerr, statusWord_fields] at hstatus
  rw [invposAfterAll_of_valid hvalid] at hinvpos
  exact ⟨v, hv, hvw, hstatus, BitVec.eq_of_toNat_eq hinvpos⟩

end Sys2Proof.Machine
end

section
namespace Sys2Proof.Machine

/-! ### The group commands of DEC (41_decoder.md R106, R109) -/

/-- ACC after PK6 of each symbol of a list, the first of them into field `n` (R100). -/
def insertSymbols : Acc → Nat → List Byte → Acc
  | a, _, [] => a
  | a, n, c :: g => insertSymbols (insert6 a n (packedValue c)) (n + 1) g

/-- A group packed into a clear accumulator (R102). -/
theorem insertSymbols_clear : ∀ {g : List Byte}, g.length ≤ 4 → insertSymbols 0 0 g = groupValues g
  | [], _ => by decide
  | [c0], _ => insert6_first _
  | [c0, c1], _ => by simp [insertSymbols, groupValues, insert6_first, insert6_second]
  | [c0, c1, c2], _ => by simp [insertSymbols, groupValues, insert6_first, insert6_second, insert6_third]
  | [c0, c1, c2, c3], _ => by
    simp [insertSymbols, groupValues, insert6_first, insert6_second, insert6_third, insert6_fourth]

/-- CNT as a position (R23). -/
def cntPosition (c : BitVec 3) : Cursor := c.setWidth' Config.three_le_CW

theorem toNat_cntPosition (c : BitVec 3) : (cntPosition c).toNat = c.toNat := BitVec.toNat_setWidth' ..

theorem cntPosition_succ {c : BitVec 3} (h : c.toNat < 4) : cntPosition (c + 1) = forward (cntPosition c) 1 := by
  have hlimit : 4 < Config.cursorLimit :=
    Nat.lt_of_lt_of_le (by decide : 4 < 2 ^ 3) (Nat.pow_le_pow_right (by decide) Config.three_le_CW)
  apply BitVec.eq_of_toNat_eq
  rw [toNat_forward (limit := 4) (by rw [toNat_cntPosition]; omega) hlimit, toNat_cntPosition, toNat_cntPosition,
    toNat_cnt_succ h]

/-- The state after PK6 of one symbol for which the group has space, at position `pos` (R100). -/
def afterSymbol (s : State) (c : Byte) (pos : Cursor) : State :=
  { s with
    padc := padAfter c s.padc, status := statusAfter c s.status, invpos := invposAfter c pos s.inv s.invpos
    acc := insert6 s.acc s.cnt.toNat (packedValue c), cnt := s.cnt + 1 }

theorem step_pk6 {s : State} (herr : s.err = 0) (hcnt : s.cnt.toNat < 4) (c : Byte) (rest : List HostAction) :
    step { s with inbox := .issue (encode (.pk6 c)) :: rest } =
      .next { afterSymbol s c (cntPosition s.cnt) with inbox := rest } :=
  (step_issue herr).trans (congrArg Flow.outcome (packSymbol_of_lt (s := { s with inbox := rest }) hcnt))

/-- PK6 of each symbol of a list for which the group has space, step by step (R100). -/
theorem stepsTo_pk6 {rest : List HostAction} : ∀ {g : List Byte} {s : State}, s.err = 0 → s.cnt.toNat + g.length ≤ 4 →
    stepsTo g.length { s with inbox := issues (g.map .pk6) ++ rest }
      { s with
        acc := insertSymbols s.acc s.cnt.toNat g, cnt := s.cnt + BitVec.ofNat 3 g.length, padc := padAll g s.padc
        status := statusAll g s.status, invpos := invposAll g (cntPosition s.cnt) s.status s.invpos, inbox := rest }
  | [], s, _, _ => by simp [stepsTo, issues, insertSymbols, padAll, statusAll, invposAll]
  | c :: g, s, herr, hlen => by
    rw [List.length_cons] at hlen
    have hspace : s.cnt.toNat < 4 := by omega
    have hcnt := toNat_cnt_succ hspace
    have herr' : (afterSymbol s c (cntPosition s.cnt)).err = 0 := (statusAfter_err c s.status).trans herr
    have hothers := stepsTo_pk6 (rest := rest) (g := g) herr' (by simp only [afterSymbol, hcnt]; omega)
    simp only [afterSymbol, hcnt, cntPosition_succ hspace] at hothers
    refine stepsTo_cons (step_pk6 herr hspace c _) ?_
    rw [insertSymbols, List.length_cons, Nat.add_comm g.length, BitVec.ofNat_add, ← BitVec.add_assoc]
    exact hothers

/-- The state that holds a group of symbols, the first of them at position `p`: what CLRA and PK6 of each of them leave
(R80, R100). -/
def holdSymbols (s : State) (g : List Byte) (p : Cursor) : State :=
  { s with
    acc := groupValues g, cnt := BitVec.ofNat 3 g.length, padc := padAll g 0
    status := statusAll g s.status, invpos := invposAll g p s.status s.invpos }

/-- The lookups of a group raise no fault (R155). -/
theorem holdSymbols_err (s : State) (g : List Byte) (p : Cursor) : (holdSymbols s g p).err = s.err :=
  (congrArg (·.extractLsb' 0 4) (statusAll_eq g s.status)).trans (statusWord_err _ _)

/-- CLRA and PK6 of each symbol of a group, step by step (R80, R100). -/
theorem stepsTo_holdSymbols {s : State} (herr : s.err = 0) {g : List Byte} (hlen : g.length ≤ 4) (rest : List HostAction) :
    stepsTo (g.length + 1) { s with inbox := issues (.clra :: g.map .pk6) ++ rest }
      { holdSymbols s g 0 with inbox := rest } := by
  have hclear : step { s with inbox := issues (.clra :: g.map .pk6) ++ rest } =
      .next { clearGroup s with inbox := issues (g.map .pk6) ++ rest } := step_issue herr
  have hpack := stepsTo_pk6 (rest := rest) (g := g) (s := clearGroup s) herr (by simpa [clearGroup] using hlen)
  have hheld : ({ clearGroup s with
      acc := insertSymbols 0 0 g, cnt := 0 + BitVec.ofNat 3 g.length, padc := padAll g 0
      status := statusAll g s.status, invpos := invposAll g (cntPosition 0) s.status s.invpos, inbox := rest } : State) =
      { holdSymbols s g 0 with inbox := rest } := by
    have hzero : cntPosition 0 = 0 := by simp [cntPosition]
    rw [insertSymbols_clear hlen, zero_add, hzero]; rfl
  exact stepsTo_cons hclear (hheld ▸ hpack)

/-- Settles O45: the state that holds the group, whose PADC is the trailing run. -/
theorem padCountIsTheTrailingRun : Obligations.PadCountIsTheTrailingRun := by
  intro g s herr hlen
  have hsteps := stepsTo_holdSymbols herr hlen []
  rw [List.append_nil] at hsteps
  exact ⟨_, hsteps, padAll_eq g, toNat_ofNat_cnt hlen, (holdSymbols_err s g 0).trans herr⟩

/-- A part of a list without invalid symbols has none. -/
theorem valid_of_subset {g r : List Byte} (hsub : g ⊆ r) (h : r.any invalidSymbol = false) : g.any invalidSymbol = false :=
  List.any_eq_false.2 fun c hc => List.any_eq_false.1 h c (hsub hc)

/-- Where no symbol is invalid the lookups do not write INVPOS, whatever the positions (R23). -/
theorem invposAll_of_valid {cs : List Byte} (h : cs.any invalidSymbol = false) (p : Cursor) (w : BitVec 5) (q : Cursor) :
    invposAll cs p w q = q := by
  have hinv : (statusAll cs w).getLsbD 4 = w.getLsbD 4 := by rw [statusAll_eq, statusWord_inv, h, Bool.or_false]
  rcases flagsAll_rise cs p w q with ⟨hkept, _⟩ | ⟨hlow, hhigh⟩
  · exact hkept
  · rw [hinv, hlow] at hhigh; cases hhigh

/-- A group without invalid symbols is held alike wherever it stands in the source (R23, R109). -/
theorem holdSymbols_of_valid {g : List Byte} (h : g.any invalidSymbol = false) (s : State) (p q : Cursor) :
    holdSymbols s g p = holdSymbols s g q := by
  simp only [holdSymbols, invposAll_of_valid h]

/-- One group of DEC is EMB of the group that the reads leave, with `fin` = 1 for the final one (R102). -/
theorem decodeGroup_eq_emitBytes {s : State} (h : s.srcpos.toNat ≤ s.src.length) :
    decodeGroup s = emitBytes (decide (s.remaining.length ≤ 4))
      { holdSymbols s (s.remaining.take 4) s.srcpos with srcpos := forward s.srcpos (min s.remaining.length 4) } := by
  have hend : ((forward s.srcpos (min s.remaining.length 4)).toNat == s.src.length) = decide (s.remaining.length ≤ 4) := by
    have hlen := remaining_length h
    rw [toNat_forward_srcpos (Nat.min_le_left _ _), Bool.eq_iff_iff, beq_iff_eq, decide_eq_true_iff]
    omega
  rw [decodeGroup, fillSymbols h, andThen_running, srcAtEnd, hend, holdSymbols, groupValues_take, List.length_take,
    Nat.min_comm 4]
  rfl

/-- `DstWrite` reads neither SRCPOS nor the waiting actions (R43). -/
theorem dstWriteAll_elsewhere {vs : List Byte} {s t : State} (e : (dstWriteAll vs s).outcome = .next t) (pos : Cursor)
    (inbox : List HostAction) :
    (dstWriteAll vs { s with srcpos := pos, inbox := inbox }).outcome = .next { t with srcpos := pos, inbox := inbox } := by
  rcases Nat.lt_or_ge s.room vs.length with h | h
  · cases (congrArg Flow.outcome (dstWriteAll_of_short h)).symm.trans e
    exact congrArg Flow.outcome (dstWriteAll_of_short (s := { s with srcpos := pos, inbox := inbox }) h)
  · cases (congrArg Flow.outcome (dstWriteAll_of_fits h)).symm.trans e
    exact congrArg Flow.outcome (dstWriteAll_of_fits (s := { s with srcpos := pos, inbox := inbox }) h)

/-- EMB reads neither SRCPOS nor the waiting actions (R101). -/
theorem emitBytes_elsewhere {fin : Bool} {s t : State} (e : (emitBytes fin s).outcome = .next t) (pos : Cursor)
    (inbox : List HostAction) :
    (emitBytes fin { s with srcpos := pos, inbox := inbox }).outcome = .next { t with srcpos := pos, inbox := inbox } := by
  by_cases hc : s.cnt = 0
  · rw [emitBytes, if_pos hc] at e ⊢
    cases e; rfl
  · rw [emitBytes, if_neg hc] at e ⊢
    exact dstWriteAll_elsewhere e pos inbox

/-- The commands of one group without invalid symbols, step by step, from a state with any SRCPOS and any actions behind them
(R109). -/
theorem stepsTo_decodeGroup {s t : State} (herr : s.err = 0) (h : s.srcpos.toNat ≤ s.src.length)
    (hvalid : s.remaining.any invalidSymbol = false) (e : (decodeGroup s).outcome = .next t) (pos : Cursor)
    (rest : List HostAction) :
    stepsTo (decodeGroupCommands (s.remaining.take 4) (decide (s.remaining.length ≤ 4))).length
      { s with
        srcpos := pos
        inbox := issues (decodeGroupCommands (s.remaining.take 4) (decide (s.remaining.length ≤ 4))) ++ rest }
      { t with srcpos := pos, inbox := rest } := by
  rw [decodeGroup_eq_emitBytes h] at e
  have hgvalid := valid_of_subset (List.take_subset 4 _) hvalid
  have hlen : (s.remaining.take 4).length ≤ 4 := List.length_take_le 4 _
  generalize decide (s.remaining.length ≤ 4) = fin at e ⊢
  generalize s.remaining.take 4 = g at e hgvalid hlen ⊢
  have hinbox : issues (decodeGroupCommands g fin) ++ rest =
      issues (.clra :: g.map .pk6) ++ .issue (encode (.emb fin)) :: rest := by simp [issues, decodeGroupCommands]
  have hcount : (decodeGroupCommands g fin).length = g.length + 1 + 1 := by simp [decodeGroupCommands]
  have hemit : step { holdSymbols s g 0 with srcpos := pos, inbox := .issue (encode (.emb fin)) :: rest } =
      .next { t with srcpos := pos, inbox := rest } := by
    rw [holdSymbols_of_valid hgvalid s 0 s.srcpos]
    exact (step_issue (s := { holdSymbols s g s.srcpos with srcpos := pos }) ((holdSymbols_err s g s.srcpos).trans herr)).trans
      (emitBytes_elsewhere e pos rest)
  rw [hinbox, hcount]
  exact stepsTo_trans (stepsTo_holdSymbols (s := { s with srcpos := pos }) herr hlen _) (stepsTo_cons hemit rfl)

/-- The commands of a list are those of its first group, with `fin` = 1 when it is the final one, and those of the rest
(R109). -/
theorem decodeCommands_split : ∀ {r : List Byte}, r ≠ [] →
    decodeCommands r = decodeGroupCommands (r.take 4) (decide (r.length ≤ 4)) ++ decodeCommands (r.drop 4)
  | [_], _ => rfl
  | [_, _], _ => rfl
  | [_, _, _], _ => rfl
  | [_, _, _, _], _ => rfl
  | s0 :: s1 :: s2 :: s3 :: s4 :: rest, _ => by
    have hmore : decide ((s0 :: s1 :: s2 :: s3 :: s4 :: rest).length ≤ 4) = false := decide_eq_false (by simp)
    rw [hmore]; rfl

theorem clrf_not_mem_decodeCommands (r : List Byte) : .clrf ∉ decodeCommands r := by
  by_cases hr : r = []
  · subst hr; exact List.not_mem_nil
  have hpos : 0 < r.length := List.length_pos_iff.2 hr
  have hrest := clrf_not_mem_decodeCommands (r.drop 4)
  rw [decodeCommands_split hr]
  generalize r.take 4 = g
  simp [decodeGroupCommands, hrest]
termination_by r.length

/-- What one group that runs to its end leaves for the next one: no fault, and the elements behind it (R102). -/
theorem decodeGroup_running {s t : State} (h : s.srcpos.toNat < s.src.length) (e : decodeGroup s = .running t) :
    t.err = s.err ∧ t.remaining = s.remaining.drop 4 := by
  obtain ⟨fits, short⟩ := decodeGroup_eq h.le _ rfl ((remaining_ne_nil_iff s).2 h)
  rcases Nat.lt_or_ge s.room (firstBytes s.remaining).length with hroom | hroom
  · cases (short hroom).symm.trans e
  · cases (fits hroom).symm.trans e
    exact ⟨holdSymbols_err s (s.remaining.take 4) s.srcpos, src_drop_group s 4⟩

/-- A group that does not run to its end leaves `Capacity` (R102, R154). -/
theorem decodeGroup_ended {s t : State} (h : s.srcpos.toNat < s.src.length) (e : decodeGroup s = .ended t) : t.err = 4 := by
  obtain ⟨fits, short⟩ := decodeGroup_eq h.le _ rfl ((remaining_ne_nil_iff s).2 h)
  rcases Nat.lt_or_ge s.room (firstBytes s.remaining).length with hroom | hroom
  · cases (short hroom).symm.trans e
    exact State.setErr_err _ _
  · cases (fits hroom).symm.trans e

/-- At the end of the source DEC changes nothing (R102). -/
theorem execDec_atEnd {s : State} (h : s.srcpos.toNat = s.src.length) : exec .dec s = .next s :=
  congrArg Flow.outcome (whileSource_atEnd h)

/-- DEC without invalid symbols and its group commands, from a state with any SRCPOS: group by group, and once a fault is pending
the commands that are left are dropped (R109, R160; log 11). -/
theorem execDec_stepsTo {s : State} (herr : s.err = 0) (h : s.srcpos.toNat ≤ s.src.length)
    (hvalid : s.remaining.any invalidSymbol = false) (pos : Cursor) :
    ∃ t, exec .dec s = .next t ∧
      stepsTo (decodeCommands s.remaining).length { s with srcpos := pos, inbox := issues (decodeCommands s.remaining) }
        { t with srcpos := pos, inbox := [] } := by
  rcases h.eq_or_lt with hend | hlt
  · have hr : s.remaining = [] := List.drop_eq_nil_of_le hend.ge
    rw [hr]
    exact ⟨s, execDec_atEnd hend, rfl⟩
  have hr := (remaining_ne_nil_iff s).2 hlt
  rw [decodeCommands_split hr, issues_append, List.length_append]
  obtain ⟨u, _, hle, hsrc, ⟨hgroup, hdec⟩ | ⟨hgroup, hdec⟩⟩ := execDec_turn hlt <;>
    have hsteps := stepsTo_decodeGroup herr h hvalid (congrArg Flow.outcome hgroup) pos
      (issues (decodeCommands (s.remaining.drop 4)))
  · obtain ⟨huerr, hrest⟩ := decodeGroup_running hlt hgroup
    have hless : u.remaining.length < s.remaining.length := by
      rw [hrest, List.length_drop]
      exact Nat.sub_lt (List.length_pos_iff.2 hr) (by decide)
    have huvalid : u.remaining.any invalidSymbol = false := hrest ▸ valid_of_subset (List.drop_subset 4 _) hvalid
    obtain ⟨t, ht, hlater⟩ := execDec_stepsTo (s := u) (huerr.trans herr) (by rwa [hsrc]) huvalid pos
    rw [hrest] at hlater
    exact ⟨t, hdec.trans ht, stepsTo_trans hsteps hlater⟩
  · have hfault : u.err ≠ 0 := by rw [decodeGroup_ended hlt hgroup]; decide
    exact ⟨u, hdec, stepsTo_trans hsteps
      (stepsTo_of_pending (s := { u with srcpos := pos }) hfault (clrf_not_mem_decodeCommands _))⟩
termination_by s.remaining.length

/-- Settles O44: from the state that has the commands waiting. -/
theorem decodeEqualsItsGroupCommands : Obligations.DecodeEqualsItsGroupCommands := by
  intro s herr h hvalid
  obtain ⟨t, ht, hsteps⟩ := execDec_stepsTo herr h hvalid s.srcpos
  exact ⟨t, _, ht, hsteps, rfl⟩

end Sys2Proof.Machine
end

/-!
PROOFS of the statements about the helper functions and the helper commands (42_helpers.md).
The lookups are inverse because ALPHA lists distinct codes; a field of ACC is what was last inserted into it.
-/

section
namespace Sys2Proof.Machine

/-! ### The lookups (42_helpers.md R120, R121) -/

/-- A code that is no entry of ALPHA has the value 64 (R120). -/
theorem symToVal_of_forall_ne {c : Byte} (h : ∀ i : Fin 64, symbols.alpha[i] ≠ c) : symToVal c = 64 := by
  refine List.idxOf_of_notMem fun hmem => ?_
  obtain ⟨i, hi, hc⟩ := Vector.mem_iff_getElem.1 (Vector.mem_toList_iff.1 hmem)
  exact h ⟨i, hi⟩ hc

/-- The codes that have a value other than 64 are the entries of ALPHA (R120). -/
theorem symToVal_ne_iff {c : Byte} : symToVal c ≠ 64 ↔ ∃ i : Fin 64, symbols.alpha[i] = c := by
  constructor
  · exact fun h => not_forall_not.1 fun hno => h (symToVal_of_forall_ne hno)
  · rintro ⟨i, rfl⟩
    rw [symToVal_alpha]
    exact i.isLt.ne

/-- The value of a code by the ranges of ASCII in which ALPHA stands (R120; log 6). -/
def asciiValue (c : Byte) : Nat :=
  if c = 0x2B then 62 else if c = 0x2F then 63
  else if 0x30 ≤ c ∧ c ≤ 0x39 then c.toNat - 0x30 + 52
  else if 0x41 ≤ c ∧ c ≤ 0x5A then c.toNat - 0x41
  else if 0x61 ≤ c ∧ c ≤ 0x7A then c.toNat - 0x61 + 26
  else 64

theorem asciiValue_alpha : ∀ i : Fin 64, asciiValue symbols.alpha[i] = i := by decide

theorem alpha_asciiValue : ∀ c : Byte, asciiValue c ≠ 64 → symbols.alpha[asciiValue c]? = some c := by decide

/-- The ranges give each entry of ALPHA its index, and 64 to every other code (R120). -/
theorem symToVal_eq_asciiValue (c : Byte) : symToVal c = asciiValue c := by
  by_cases h : ∃ i : Fin 64, symbols.alpha[i] = c
  · obtain ⟨i, rfl⟩ := h
    rw [symToVal_alpha, asciiValue_alpha]
  · rw [symToVal_of_forall_ne (not_exists.1 h)]
    by_contra hne
    obtain ⟨hlt, hc⟩ := Vector.getElem?_eq_some_iff.1 (alpha_asciiValue c (Ne.symm hne))
    exact h ⟨⟨_, hlt⟩, hc⟩

/-- Settles O19: an entry has its own index, any other code 64; the table is that of the ranges. -/
theorem symbolToValueTable : Obligations.SymbolToValueTable :=
  ⟨fun _ i h => h ▸ symToVal_alpha i, fun _ => symToVal_of_forall_ne, symToVal_eq_asciiValue⟩

theorem symToVal_valToSym (v : Value6) : symToVal (valToSym v) = v.toNat := symToVal_alpha v.toFin

theorem valToSym_symToVal {c : Byte} (h : symToVal c ≠ 64) : valToSym (BitVec.ofNat 6 (symToVal c)) = c := by
  obtain ⟨i, rfl⟩ := symToVal_ne_iff.1 h
  rw [symToVal_alpha]
  simp [valToSym]

/-- The codes that have a value are the entries of ALPHA, each once (R127). -/
theorem codesWithValue_perm : ((List.range 256).filter fun n => symToVal (BitVec.ofNat 8 n) != 64).Perm
    ((List.finRange 64).map fun i => symbols.alpha[i].toNat) := by
  have hinj : Function.Injective fun i : Fin 64 => symbols.alpha[i].toNat := fun i j h =>
    alphabetIsTheStandardOne.2.1 i j (BitVec.eq_of_toNat_eq h)
  refine (List.perm_ext_iff_of_nodup (List.nodup_range.filter _) ((List.nodup_finRange 64).map hinj)).2 fun n => ?_
  simp only [List.mem_filter, List.mem_range, bne_iff_ne, symToVal_ne_iff, List.mem_map, List.mem_finRange, true_and]
  constructor
  · rintro ⟨hn, i, hi⟩
    exact ⟨i, by rw [hi, BitVec.toNat_ofNat, Nat.mod_eq_of_lt hn]⟩
  · rintro ⟨i, rfl⟩
    exact ⟨BitVec.isLt _, i, by rw [BitVec.ofNat_toNat, BitVec.setWidth_eq]⟩

/-! ### The fields of ACC (42_helpers.md R122, R127) -/

/-- Extract as a number (R122). -/
theorem toNat_extract (a : Acc) (i w : Nat) :
    (extract a i w).toNat = (a.toNat >>> (24 - w * (i + 1))) &&& (2 ^ w - 1) := by
  rw [extract, BitVec.extractLsb'_toNat, Nat.and_two_pow_sub_one_eq_mod]

/-- Settles O20: the slice is the shift and mask for any width and index. -/
theorem extractIsShiftAndMask : Obligations.ExtractIsShiftAndMask := fun a i =>
  ⟨fun _ => toNat_extract a i 6, fun _ => toNat_extract a i 8⟩

/-- A value is packed from its own four 6-bit fields (R127). -/
theorem insert6_extract (a : Acc) :
    insert6 (insert6 (insert6 (insert6 0 0 (extract a 0 6)) 1 (extract a 1 6)) 2 (extract a 2 6)) 3 (extract a 3 6) = a := by
  rw [show (0 : Acc) = 0#24 from rfl, insert6_first, insert6_second, insert6_third, insert6_fourth, values24_extract]

/-- Settles O23: a field is what was inserted into it, and the insertions into other fields leave it alone. -/
theorem lookupsAndFieldsAreInverse : Obligations.LookupsAndFieldsAreInverse := by
  refine ⟨symToVal_valToSym, fun _ => valToSym_symToVal, by simpa using codesWithValue_perm.length_eq, ?_, ?_⟩
  · rintro b0 b1 b2 a rfl
    refine ⟨?_, ?_, ?_, insert6_extract _⟩ <;> simp [extract_insert8_same, extract_insert8_ne]
  · rintro v0 v1 v2 v3 a rfl
    refine ⟨?_, ?_, ?_, ?_⟩ <;> simp [extract_insert6_same, extract_insert6_ne]

/-! ### S2V, V2S and XBIT (42_helpers.md R123 to R125) -/

/-- Settles O31: S2V has one case, whatever the lookup gives. -/
theorem symbolToValueCommand : Obligations.SymbolToValueCommand := fun c _ => ⟨formatI_eq_add 0x3 c, fun _ => rfl⟩

/-- The symbol of a value that V2S has as a byte (R121, R124). -/
theorem valToSym_setWidth {v : Byte} (h : v.toNat < 64) : valToSym (v.setWidth 6) = symbols.alpha[v.toNat] := by
  simp only [valToSym, BitVec.toNat_setWidth, Nat.mod_eq_of_lt h]

/-- V2S below 64 (R124). -/
theorem execV2s_of_lt {v : Byte} (h : v.toNat < 64) (s : State) :
    execV2s v s = .next { s with res := symbols.alpha[v.toNat] } := by
  rw [execV2s, if_neg (Nat.not_le_of_lt h), valToSym_setWidth h]

/-- Settles O32: V2S has one case below 64 and one from 64 on. -/
theorem valueToSymbolCommand : Obligations.ValueToSymbolCommand := fun v s =>
  ⟨formatI_eq_add 0x4 v, fun _ => ⟨fun h => execV2s_of_lt h s, fun h => if_pos h⟩⟩

theorem formatX_eq_add (op : BitVec 4) (w : FieldWidth) (idx : BitVec 2) :
    formatX op w idx = formatX op w 0 + idx.setWidth 16 := append_eq_add _ idx

/-- Settles O33: the only case of XBIT that raises is width 8 with index 3. -/
theorem extractFieldCommand : Obligations.ExtractFieldCommand := by
  refine fun idx s => ⟨formatX_eq_add 0x5 .six idx, formatX_eq_add 0x5 .eight idx, fun _ =>
    ⟨rfl, fun h => if_neg ?_, fun h => if_pos h⟩⟩
  rintro rfl
  exact absurd h (by decide)

end Sys2Proof.Machine
end

/-!
PROOFS of the statements about the step, the host's actions and the system command (43_system.md).
A step performs the first waiting action; each statement says what that action does.
-/

section
namespace Sys2Proof.Machine

/-! ### Command issue (R140, R144) -/

/-- A step performs the first waiting action, which is taken off the list (R144). -/
theorem step_of_inbox {s : State} {a : HostAction} {rest : List HostAction} (h : s.inbox = a :: rest) :
    step s = perform a { s with inbox := rest } := by
  rw [step, h]

/-- The word of a command is not dropped when no fault is pending, and that of CLRF never is (R160). -/
theorem not_dropped_of_decode {w : Word} {i : Instr} {s : State} (hi : decode w = .ok i) (h : s.err = 0 ∨ i = .clrf) :
    dropped w s = false := by
  rcases h with herr | rfl
  · exact dropped_of_err_zero herr
  · rw [eq_clrfWord_of_decode hi]; exact dropped_clrf s

/-- The issue of such a word is its command (R144). -/
theorem step_of_decode {s : State} {w : Word} {i : Instr} {rest : List HostAction} (hin : s.inbox = .issue w :: rest)
    (hi : decode w = .ok i) (h : s.err = 0 ∨ i = .clrf) : step s = exec i { s with inbox := rest } :=
  (step_of_inbox hin).trans (issueWord_of_ok (not_dropped_of_decode hi h) hi)

/-- Settles O8: the word is not dropped, so the step is its command; `withFetchWord` issues a 16-bit number as it is. -/
theorem stepRunsTheDecodedCommand : Obligations.StepRunsTheDecodedCommand := by
  refine ⟨fun s w i rest hin hi h => step_of_decode hin hi h, fun s n i hi hn h => ?_⟩
  have hin : (s.withFetchWord 16 n).inbox = .issue (BitVec.ofNat 16 n) :: s.inbox := by
    rw [State.withFetchWord_eq, Nat.mod_eq_of_lt hn]
  exact step_of_decode hin hi h

/-- STATUS with INV 0 and ERR 0 is 0 (R20). -/
theorem statusWord_zero : statusWord false 0 = 0 := by decide

/-- Settles O34: CLRF is the return from a fault, which sets both fields of STATUS to 0. -/
theorem clearFaultCommand : Obligations.ClearFaultCommand :=
  ⟨rfl, fun _ => eq_clrfWord_of_decode, fun s => by rw [exec, execClrf, acknowledge, statusWord_zero]⟩

/-- Settles O57: the case of each command is `exec_isNext`. -/
theorem commandsAlwaysEndInANextState : Obligations.CommandsAlwaysEndInANextState := fun i _ h => exec_isNext i h

/-! ### The host's other actions (R142, R143, R145) -/

/-- A write to any other number than 7 and 8 is ignored (R24, R142). -/
theorem writeRegister_of_ne {n : Nat} (h7 : n ≠ 7) (h8 : n ≠ 8) (v : Cursor) (s : State) : writeRegister n v s = s := by
  unfold writeRegister
  split
  · exact absurd rfl h7
  · exact absurd rfl h8
  · rfl

/-- Settles O14: the two numbers that have a register, and every other one. -/
theorem registerWriteReachesTheTwoCursors : Obligations.RegisterWriteReachesTheTwoCursors := by
  intro s rest n v hin
  rw [step_of_inbox hin, perform]
  refine ⟨?_, ?_, fun h7 h8 => congrArg _ (writeRegister_of_ne h7 h8 v _)⟩
  · rintro rfl; rfl
  · rintro rfl; rfl

/-- Settles O15: the step is the bind, which writes SRC and SRCPOS. -/
theorem bindSetsTheSourceAndItsCursor : Obligations.BindSetsTheSourceAndItsCursor := fun _ _ _ hin => step_of_inbox hin

/-- The host's read of a written position answers its element (R145). -/
theorem readDestination_of_some {s : State} {p : Nat} {v : Byte} (h : s.dst.read p = some v) :
    readDestination p s = .next { s with reply := some v.toNat } := by
  rw [readDestination, h]

/-- The host's read of an unwritten position stops the model (R29; log 7). -/
theorem readDestination_of_none {s : State} {p : Nat} (h : s.dst.read p = none) :
    readDestination p s = .fault (.unwrittenDestination p) := by
  rw [readDestination, h]

/-- Settles O16: the position has been written, or it has not. -/
theorem destinationReadNeedsAWrittenPosition : Obligations.DestinationReadNeedsAWrittenPosition := by
  intro s rest p hin
  rw [step_of_inbox hin]
  exact ⟨fun v hv => readDestination_of_some hv, fun hnone => readDestination_of_none hnone⟩

end Sys2Proof.Machine
end

/-!
PROOFS of the statements about the faults (60_exceptions.md): what a raise writes, in what order the causes are looked at, and what a
pending fault stops.
-/

section
namespace Sys2Proof.Machine

/-! ### Taking a fault (60_exceptions.md R150, R151, R158) -/

/-- Settles O48: a raise is one write of STATUS.ERR, and the codes are those of R150. -/
theorem raiseWritesOnlyTheFaultCode : Obligations.RaiseWritesOnlyTheFaultCode := by
  intro f s
  refine ⟨_, raise_eq f s, rfl, State.setErr_inv .., (State.setErr_err ..).trans ?_⟩
  cases f <;> rfl

/-- With no fault pending the issue of an illegal word raises `IllegalCommand` (R64, R151). -/
theorem step_of_error {s : State} {w : Word} {x : IllegalWord} {rest : List HostAction} (hin : s.inbox = .issue w :: rest)
    (hx : decode w = .error x) (herr : s.err = 0) : step s = .next (({ s with inbox := rest } : State).setErr 1) :=
  (step_of_inbox hin).trans (issueWord_of_error (dropped_of_err_zero herr) hx)

/-- Settles O9: the raise of `IllegalCommand`, and nothing else. -/
theorem illegalWordRaisesCodeOne : Obligations.IllegalWordRaisesCodeOne := fun _ _ _ _ => step_of_error

/-! ### While a fault is pending, and between commands (R160, R168) -/

/-- While a fault is pending the issue of any word but 0xB000 only takes it off the list (R160). -/
theorem step_of_pending {s : State} {w : Word} {rest : List HostAction} (hin : s.inbox = .issue w :: rest)
    (herr : s.err ≠ 0) (hw : w ≠ clrfWord) : step s = .next { s with inbox := rest } :=
  (step_of_inbox hin).trans (issueWord_of_dropped (dropped_of_pending herr hw))

/-- Such a word marks the state before it (R160; log 11). -/
theorem dropsNext_of_pending {s : State} {w : Word} {rest : List HostAction} (hin : s.inbox = .issue w :: rest)
    (herr : s.err ≠ 0) (hw : w ≠ clrfWord) : s.dropsNext = true := by
  rw [State.dropsNext, hin]
  exact dropped_of_pending herr hw

/-- Settles O10: only an issued word is looked at for a drop; the step performs every other action as it would without a fault. -/
theorem pendingFaultDropsEveryOtherWord : Obligations.PendingFaultDropsEveryOtherWord := fun _ _ herr =>
  ⟨fun _ hw hin => ⟨step_of_pending hin herr hw, dropsNext_of_pending hin herr hw⟩,
    fun _ => step_of_inbox, fun _ => step_of_inbox, fun _ => step_of_inbox, fun _ => step_of_inbox⟩

/-- Settles O11: with an action waiting the list would not be empty. -/
theorem idleStepKeepsTheState : Obligations.IdleStepKeepsTheState := by
  intro s hidle
  rcases step_cases s with ⟨_, hs⟩ | ⟨a, rest, hin, _⟩
  · exact hs
  · rw [hidle] at hin; cases hin

/-! ### The order of the causes (R157) -/

/-- Settles O49: the drop comes before the decoder, the decoder before the command, and the entry check of EMS and EMB, which O29 and
O30 state for every capacity, before the first write. -/
theorem faultPriorityOrder : Obligations.FaultPriorityOrder := by
  intro s w rest hin
  refine ⟨step_of_pending hin, fun herr ⟨x, hx⟩ => step_of_error hin hx herr, ?_, ?_⟩
  · rintro herr rfl hcnt _
    obtain ⟨hword, hems⟩ := emitSymbolsCommand
    obtain ⟨hentry, _⟩ := hems { s with inbox := rest } herr
    exact (step_of_decode hin (decode_eq_ok_iff.2 hword.symm) (.inl herr)).trans (hentry hcnt)
  · rintro fin herr rfl hcnt _
    obtain ⟨hword, hemb⟩ := emitBytesCommand fin { s with inbox := rest }
    obtain ⟨hentry, _⟩ := hemb herr
    exact (step_of_decode hin (decode_eq_ok_iff.2 hword.symm) (.inl herr)).trans (hentry hcnt)

/-! ### The faults of ENC and DEC (R153, R154) -/

/-- ENC leaves STATUS.ERR alone, or raises `Capacity` (R83, R154). -/
theorem execEnc_err {s t : State} (e : exec .enc s = .next t) : t.err = s.err ∨ t.err = 4 := by
  obtain ⟨fits, short⟩ := encodeLoop_eq _ s (srcpos_le_of_execEnc e) (remaining_lt_sourceFuel s)
  rcases Nat.lt_or_ge s.room (4 * ceilDiv s.remaining.length 3) with hroom | hroom
  · cases (congrArg Flow.outcome (short hroom)).symm.trans e
    exact .inr (State.setErr_err ..)
  · cases (congrArg Flow.outcome (fits hroom)).symm.trans e
    exact .inl rfl

/-- The lookups of a list leave STATUS.ERR alone (R155). -/
theorem statusAll_err (cs : List Byte) (w : BitVec 5) : (statusAll cs w).extractLsb' 0 4 = w.extractLsb' 0 4 := by
  rw [statusAll_eq, statusWord_err]

theorem decodeFits_err (s : State) (r : List Byte) : (decodeFits s r).err = s.err := by
  unfold decodeFits
  split
  · rfl
  · exact statusAll_err r s.status

theorem decodeShort_err (s : State) (r : List Byte) : (decodeShort s r).err = 4 := State.setErr_err ..

/-- DEC leaves STATUS.ERR alone, or raises `Capacity` (R102, R154). -/
theorem execDec_err {s t : State} (e : exec .dec s = .next t) : t.err = s.err ∨ t.err = 4 := by
  rcases execDec_eq_next e with rfl | rfl
  · exact .inl (decodeFits_err _ _)
  · exact .inr (decodeShort_err _ _)

/-- Settles O50: the end of either loop, in closed form, has the ERR it started from, or `Capacity`. -/
theorem streamCommandsRaiseOnlyCapacity : Obligations.StreamCommandsRaiseOnlyCapacity := by
  rintro i s t hi herr e
  rw [← herr]
  rcases hi with rfl | rfl
  · exact execEnc_err e
  · exact execDec_err e

end Sys2Proof.Machine
end
